-- ==== Sys2Proof/Config.lean ====
section
/-! DEFINITION. The implementation parameters: those the source fixes (00_scope.md R3) and those it leaves open, each
at the value the spec's decisions give it (00_scope.md R4, log entry 1). The spec leaves no value undefined after which
the machine goes on (40_step_cycle.md R58), so there is no free value here. -/

namespace Sys2Proof.Config

/-- `MEM_SIZE`: number of memory cells; addresses 0 to 99 (R3). -/
def memSize : Nat := 100

/-- `WORD_MAX`: the largest value of a cell (R3). -/
def wordMax : Nat := 999

/-- `ACC_MAX`: the largest value of the accumulator (R3). -/
def accMax : Nat := 999

/-- `PC_LIMIT`: the program counter is below it (R3). -/
def pcLimit : Nat := 100

/-- `OP_RADIX`: `opcode = word / 100`, `operand = word % 100` (R3). -/
def opRadix : Nat := 100

/-- `N_OPCODES`: the defined opcode values are 0 to 8 (R3). -/
def numOpcodes : Nat := 9

/-- `EMPTY_INPUT_VALUE`: what a read of an empty input queue yields (R3). -/
def emptyInputValue : Nat := 0

/-- `OOR_READ_VALUE`: what a memory read at an address outside 0 to 99 yields (R3). -/
def oorReadValue : Nat := 0

/-- `RESET_MEM`: the value of every cell after reset (R4). DESIGN CHOICE of the spec (decision D1), unsafe: log entry 1. -/
def resetMem : Nat := 0

/-- `RESET_ACC`: the accumulator after reset (R4). DESIGN CHOICE of the spec (decision D1), unsafe: log entry 1. -/
def resetAcc : Nat := 0

/-- `RESET_PC`: the program counter after reset (R4, forced by the worked example, 10_state.md R19). -/
def resetPc : Nat := 0

end Sys2Proof.Config
end

