-- ==== Sys2Proof/Word.lean ====
section
/-! DEFINITION. The machine word: a mathematical integer in [0, 999] (00_scope.md R5). Nothing in this machine is a
bit vector: arithmetic is exact, and ranges are enforced by the guarded writes alone. -/

namespace Sys2Proof

/-! A machine word is a `Nat` (00_scope.md, glossary): the range [0, 999] is what the guarded writes keep, not part of
the type (log entry 4). -/

/-- The hundreds digit `d2` of a word (00_scope.md section 4.1). -/
def hundredsDigit (w : Nat) : Nat := w / 100

/-- The tens digit `d1` of a word. -/
def tensDigit (w : Nat) : Nat := w / 10 % 10

/-- The units digit `d0` of a word. -/
def unitsDigit (w : Nat) : Nat := w % 10

/-- Source text, names and numerals, as lists of characters (log entry 20). -/
abbrev Text := List Char

end Sys2Proof
end

