-- ==== Sys2Proof/Syntax.lean ====
section
/-! DEFINITION. The instructions: one constructor per row of spec/opcode_table.json. -/

namespace Sys2Proof

/-- The rows of spec/opcode_table.json. Each executable row carries its operand field `word % 100` (30_encoding.md
R37), ignored by HLT, INP, OUT and opcode 9 but part of the word (R40). -/
inductive Instr where
  /-- HLT, words 0 to 99 (43_control.md R67). -/
  | hlt (operand : Nat)
  /-- ADD, words 100 to 199 (41_arithmetic.md R61). -/
  | add (operand : Nat)
  /-- SUB, words 200 to 299 (41_arithmetic.md R62). -/
  | sub (operand : Nat)
  /-- STA, words 300 to 399 (42_load_store.md R64). -/
  | sta (operand : Nat)
  /-- LDA, words 400 to 499 (42_load_store.md R65). -/
  | lda (operand : Nat)
  /-- BRA, words 500 to 599 (43_control.md R68). -/
  | bra (operand : Nat)
  /-- BRZ, words 600 to 699 (43_control.md R69). -/
  | brz (operand : Nat)
  /-- INP, words 700 to 799 (44_io.md R72). -/
  | inp (operand : Nat)
  /-- OUT, words 800 to 899 (44_io.md R73). -/
  | out (operand : Nat)
  /-- The reserved opcode 9, words 900 to 999, a no-operation (43_control.md R70). -/
  | reserved9 (operand : Nat)
  /-- DAT, the pseudo-instruction: a cell initialised to `value`, not an executable opcode (45_assembler.md R87). The
  decoder never answers it (30_encoding.md R50). -/
  | dat (value : Nat)
deriving DecidableEq, Repr

end Sys2Proof
end

