-- ==== Sys2Proof/WellFormed.lean ====
section
/-! DEFINITION. Which terms of `Instr` stand for a machine word: the operand fits its two digits (30_encoding.md R37),
and a DAT value fits a cell (10_state.md R7). -/

namespace Sys2Proof

/-- The operand field holds 0 to 99 (30_encoding.md R37). -/
def operandFits (operand : Nat) : Bool := decide (operand < Config.opRadix)

/-- The instruction is a word in [0, 999]. -/
def Instr.wellFormed : Instr → Bool
  | .hlt n => operandFits n
  | .add n => operandFits n
  | .sub n => operandFits n
  | .sta n => operandFits n
  | .lda n => operandFits n
  | .bra n => operandFits n
  | .brz n => operandFits n
  | .inp n => operandFits n
  | .out n => operandFits n
  | .reserved9 n => operandFits n
  | .dat v => decide (v ≤ Config.wordMax)

/-- The row is flagged `"pseudo": true` in the table (30_encoding.md R50): it selects no range of words and a decoder
skips it. -/
def Instr.isPseudo : Instr → Bool
  | .dat _ => true
  | .hlt _ => false
  | .add _ => false
  | .sub _ => false
  | .sta _ => false
  | .lda _ => false
  | .bra _ => false
  | .brz _ => false
  | .inp _ => false
  | .out _ => false
  | .reserved9 _ => false

end Sys2Proof
end

