-- ==== Sys2Proof/Decode.lean ====
section
/-! DEFINITION. The Instruction Codec (30_encoding.md): `decode`, the encoder of instructions, `encode_mnemonic`,
`to_text`, and the binary-coded-decimal image in which spec/opcode_table.json writes a word (R50). Pure functions: they
read and write no machine state (R36). -/

namespace Sys2Proof

/-- Why the codec gives no result. -/
inductive CodecError where
  /-- A word outside [0, 999]: `decode` has no meaning there (30_encoding.md R38, decision D23). Safe: no word the
  engine reads is one (20_memory.md R26). -/
  | wordOutOfRange
  /-- A name that is none of the ten recognised ones (30_encoding.md R44, R46; 60_exceptions.md R108). -/
  | translationFailure
  /-- `to_text` of a word with opcode 9 or outside [0, 999] (30_encoding.md R48, decision D7). Safe. -/
  | noText
deriving DecidableEq, Repr

/-- `decode(word) = (word / 100, word % 100)` (30_encoding.md R38). -/
def splitWord (w : Nat) : Nat × Nat := (w / Config.opRadix, w % Config.opRadix)

/-- `opcode * 100 + operand`, the packing of a word (30_encoding.md R37). -/
def packWord (opcode operand : Nat) : Nat := opcode * Config.opRadix + operand

/-- The row of the opcode map that an opcode selects; any value but 0 to 8 is the no-operation (30_encoding.md R39, R41,
R42). -/
def instrOf (opcode operand : Nat) : Instr :=
  match opcode with
  | 0 => .hlt operand
  | 1 => .add operand
  | 2 => .sub operand
  | 3 => .sta operand
  | 4 => .lda operand
  | 5 => .bra operand
  | 6 => .brz operand
  | 7 => .inp operand
  | 8 => .out operand
  | _ => .reserved9 operand

/-- The decoder, defined on [0, 999] and refusing any other word by name (30_encoding.md R38, R41). -/
def decode (w : Nat) : Except CodecError Instr :=
  if w ≤ Config.wordMax then .ok (instrOf (splitWord w).1 (splitWord w).2) else .error .wordOutOfRange

/-- The word of an instruction (30_encoding.md R37, R39); a DAT's word is its value (R45). -/
def encode : Instr → Nat
  | .hlt n => packWord 0 n
  | .add n => packWord 1 n
  | .sub n => packWord 2 n
  | .sta n => packWord 3 n
  | .lda n => packWord 4 n
  | .bra n => packWord 5 n
  | .brz n => packWord 6 n
  | .inp n => packWord 7 n
  | .out n => packWord 8 n
  | .reserved9 n => packWord 9 n
  | .dat v => v

/-- The opcode map: the nine mnemonics with their opcode values (30_encoding.md R39). -/
def opcodeMap : List (Text × Nat) :=
  [("HLT".toList, 0), ("ADD".toList, 1), ("SUB".toList, 2), ("STA".toList, 3), ("LDA".toList, 4),
   ("BRA".toList, 5), ("BRZ".toList, 6), ("INP".toList, 7), ("OUT".toList, 8)]

/-- The name of the pseudo-instruction (30_encoding.md R45). -/
def datName : Text := "DAT".toList

/-- The ten reserved words, exact upper case (30_encoding.md R46, decision D10, log entry 14). -/
def reservedWords : List Text := opcodeMap.map Prod.fst ++ [datName]

/-- `encode_mnemonic(name, operand)`: the formula as written, with no check of the operand's range (30_encoding.md R44,
decision D8, log entry 12); DAT gives its value (R45, decision D9, log entry 13). -/
def encodeMnemonic (name : Text) (operand : Nat) : Except CodecError Nat :=
  match opcodeMap.lookup name with
  | some k => .ok (packWord k operand)
  | none => if name = datName then .ok operand else .error .translationFailure

/-- The mnemonic of an opcode, none for a value but 0 to 8 (30_encoding.md R39, R48). -/
def mnemonicOf (opcode : Nat) : Option Text :=
  (opcodeMap.find? fun row => row.2 == opcode).map Prod.fst

/-- The ordinary decimal numeral of `n`, no sign and no leading zeros (30_encoding.md R47). -/
def decimal (n : Nat) : Text := Nat.toDigits 10 n

/-- A mnemonic and a resolved operand as text: the operand after one space, unless it is 0 (45_assembler.md R85). -/
def instructionText (mnemonic : Text) (operand : Nat) : Text :=
  if operand = 0 then mnemonic else mnemonic ++ ' ' :: decimal operand

/-- The text of an opcode and an operand: the operand is omitted only when the opcode is halt or the operand is 0
(30_encoding.md R47); no text for an opcode without a mnemonic (R48, decision D7, log entry 11). -/
def textOf (opcode operand : Nat) : Except CodecError Text :=
  match mnemonicOf opcode with
  | some m => if opcode = 0 ∨ operand = 0 then .ok m else .ok (m ++ ' ' :: decimal operand)
  | none => .error .noText

/-- `to_text(word)` (30_encoding.md R47, R48). -/
def toText (w : Nat) : Except CodecError Text := textOf (splitWord w).1 (splitWord w).2

/-- `bcd(word) = (d2 << 8) | (d1 << 4) | d0`: the image in which the table gives bits (30_encoding.md R50). Notation
only: no rule depends on how a cell is stored (decision D3, log entry 5). -/
def bcd (w : Nat) : Nat := hundredsDigit w * 256 + tensDigit w * 16 + unitsDigit w

/-- The word whose image is `x`, if each of the three 4-bit groups is a decimal digit. -/
def wordOfBcd (x : Nat) : Option Nat :=
  if x / 256 ≤ 9 ∧ x / 16 % 16 ≤ 9 ∧ x % 16 ≤ 9 then some (x / 256 * 100 + x / 16 % 16 * 10 + x % 16) else none

/-- The word an opcode-table bit pattern of `nbits` bits stands for (30_encoding.md R50, log entry 5). -/
def wordOfTableBits (nbits w : Nat) : Option Nat := wordOfBcd (w % 2 ^ nbits)

/-- What the decoder reads from an instruction given by its opcode-table bits. -/
def decodeTableWord (nbits w : Nat) : Option Instr :=
  match wordOfTableBits nbits w with
  | some v => (decode v).toOption
  | none => none

end Sys2Proof
end

