-- ==== Sys2Proof/Machine/State.lean ====
section
/-! DEFINITION. Machine State: exactly the six fields of 10_state.md R6, as plain data; the reasons a step stops; reset. -/

namespace Sys2Proof.Machine

/-- Memory: (address, value) pairs in one canonical form, addresses strictly rising, no value equal to what an unlisted
address reads as (10_state.md R7; log entry 3). A cell is a decimal integer, not a byte (20_memory.md R27). -/
abbrev Memory := List (Nat × Nat)

/-- What a cell of the address space that is not listed reads as: the reset contents (10_state.md R19; log entry 1). -/
def Memory.unlisted : Nat := Config.resetMem

/-- The six fields of Machine State (10_state.md R6). -/
structure State where
  /-- The 100 cells (R7). -/
  mem : Memory
  /-- The accumulator (R8). -/
  acc : Nat
  /-- The program counter (R9). -/
  pc : Nat
  /-- The input queue, front first (R10). -/
  inq : List Int
  /-- The output queue, oldest first (R11). -/
  outq : List Nat
  /-- The run flag (R12). -/
  running : Bool
  deriving DecidableEq, Repr

/-- Why the machine stops. -/
inductive Fault where
  /-- Raised by `step` alone, in state halted: no step is enabled there and nothing changes until reset
  (40_step_cycle.md R52, decision D2, log entry 2). A stuck state, not an exception. Safe: the model stops. -/
  | halted
deriving DecidableEq, Repr

/-- Why an instruction has no meaning. -/
inductive Refusal where
  /-- Raised by an arm of `exec` whose instruction has no meaning yet; no arm does. Safe. -/
  | notModelled (mnemonic : String)
  /-- Raised by `step` alone, when the fetched cell holds a value above 999, which `decode` gives no meaning
  (30_encoding.md R38, decision D23, log entry 4). No state that meets the range invariant does so. Safe. -/
  | wordOutOfRange (word : Nat)
deriving DecidableEq, Repr

/-- The outcome of one instruction or one step. -/
abbrev StepResult := Host.Outcome State Fault Refusal

/-- The machine right after reset (10_state.md R19, 70_reset_and_hazards.md R116). The values of `mem`, `acc` and `inq`
are the spec's decision D1: DESIGN CHOICE, unsafe, log entry 1. -/
def State.reset : State where
  mem := []
  acc := Config.resetAcc
  pc := Config.resetPc
  inq := []
  outq := []
  running := true

end Sys2Proof.Machine
end

