-- ==== Sys2Proof/Machine/Ops.lean ====
section
/-! DEFINITION. The operations over memory, registers and queues: the guarded accessors are the only way a field is
read or written (10_state.md R13, 20_memory.md R23, R24). THERE IS NO EXCEPTION ENTRY AND NO RETURN FROM ONE: this
machine has no exceptions, interrupts, modes or vectors (60_exceptions.md R103, R104, R106, R107, R110). -/

namespace Sys2Proof.Machine

/-- The value of a cell of the address space, without a guard. -/
def Memory.cell : Memory → Nat → Nat
  | [], _ => Memory.unlisted
  | (b, v) :: m, a => if a = b then v else Memory.cell m a

/-- Give the cell `a` the value `v`, keeping the canonical form. -/
def Memory.set : Memory → Nat → Nat → Memory
  | [], a, v => if v = Memory.unlisted then [] else [(a, v)]
  | (b, w) :: m, a, v =>
    if a < b then (if v = Memory.unlisted then (b, w) :: m else (a, v) :: (b, w) :: m)
    else if a = b then (if v = Memory.unlisted then m else (a, v) :: m)
    else (b, w) :: Memory.set m a v

/-- The list is canonical from address `lo` on: addresses strictly rising and in the address space, every value in
[0, 999] and different from what an unlisted address reads as (10_state.md R7). -/
def Memory.wfFrom : Nat → Memory → Bool
  | _, [] => true
  | lo, (a, v) :: m =>
    decide (lo ≤ a) && decide (a < Config.memSize) && decide (v ≠ Memory.unlisted) && decide (v ≤ Config.wordMax) &&
      Memory.wfFrom (a + 1) m

/-- The canonical form of memory (log entry 3). -/
def Memory.wf (m : Memory) : Bool := Memory.wfFrom 0 m

/-- `MemRead(a, 1)`: the cell, or 0 outside the address space, no trap (20_memory.md R23). -/
def memRead (a : Int) (s : State) : Nat :=
  if 0 ≤ a ∧ a < (Config.memSize : Int) then Memory.cell s.mem a.toNat else Config.oorReadValue

/-- `MemWrite(a, 1, v)`: performed when address and value are both in range, else nothing (20_memory.md R24). -/
def memWrite (a v : Int) (s : State) : State :=
  if 0 ≤ a ∧ a < (Config.memSize : Int) ∧ 0 ≤ v ∧ v ≤ (Config.wordMax : Int)
  then { s with mem := Memory.set s.mem a.toNat v.toNat } else s

/-- `AccWrite(v)`: the accumulator takes an exact integer in [0, 999], else nothing (10_state.md R13; 90_conflicts.md C1,
C2: dropped, neither clamped nor wrapped). -/
def accWrite (v : Int) (s : State) : State :=
  if 0 ≤ v ∧ v ≤ (Config.accMax : Int) then { s with acc := v.toNat } else s

/-- `PcWrite(v)`: the program counter takes an exact integer in [0, 99], else nothing (10_state.md R13; 90_conflicts.md
C13: no wrap). -/
def pcWrite (v : Int) (s : State) : State :=
  if 0 ≤ v ∧ v < (Config.pcLimit : Int) then { s with pc := v.toNat } else s

/-- Take the front of the input queue; an empty queue yields 0 and stays empty (10_state.md R10, 44_io.md R72). -/
def takeInput (s : State) : Int × State :=
  match s.inq with
  | [] => ((Config.emptyInputValue : Int), s)
  | v :: rest => (v, { s with inq := rest })

/-- Append to the back of the output queue (10_state.md R11, 44_io.md R73). -/
def putOutput (v : Nat) (s : State) : State := { s with outq := s.outq ++ [v] }

/-- Clear the run flag: the engine enters state halted (10_state.md R12, 43_control.md R67). -/
def clearRunning (s : State) : State := { s with running := false }

end Sys2Proof.Machine
end

