-- ==== Sys2Proof/Machine/Operands.lean ====
section
/-! DEFINITION. The one addressing mode, direct absolute (42_load_store.md R66). -/

namespace Sys2Proof.Machine

/-- The effective address is the operand field itself (42_load_store.md R66, 30_encoding.md R40). -/
def effectiveAddress (operand : Nat) : Int := (operand : Int)

/-- The cell an ADD, SUB or LDA reads (20_memory.md R25). -/
def readOperand (operand : Nat) (s : State) : Nat := memRead (effectiveAddress operand) s

/-- The cell a STA writes (20_memory.md R25). -/
def writeOperand (operand : Nat) (v : Int) (s : State) : State := memWrite (effectiveAddress operand) v s

/-- A taken branch goes to the operand (43_control.md R68, R71). -/
def branchTo (operand : Nat) (s : State) : State := pcWrite (effectiveAddress operand) s

end Sys2Proof.Machine
end

