-- ==== Sys2Proof/Machine/Arithmetic.lean ====
section
/-! DEFINITION. ADD and SUB (41_arithmetic.md): the exact integer result through the accumulator's guard (R63). -/

namespace Sys2Proof.Machine

/-- ADD (41_arithmetic.md R61). -/
def execAdd (operand : Nat) (s : State) : StepResult :=
  .next (accWrite ((s.acc : Int) + (readOperand operand s : Int)) s)

/-- SUB (41_arithmetic.md R62). -/
def execSub (operand : Nat) (s : State) : StepResult :=
  .next (accWrite ((s.acc : Int) - (readOperand operand s : Int)) s)

end Sys2Proof.Machine
end

