-- ==== Sys2Proof/Machine/Flags.lean ====
section
/-! DEFINITION. The machine has no flags (10_state.md R17): no instruction records a carry, borrow, overflow, zero or
negative indication. The one condition any instruction tests is the accumulator's present value. -/

namespace Sys2Proof.Machine

/-- The condition of BRZ: the accumulator is exactly 0 (43_control.md R69). -/
def accIsZero (s : State) : Bool := s.acc == 0

end Sys2Proof.Machine
end

