-- ==== Sys2Proof/Machine/Control.lean ====
section
/-! DEFINITION. HLT, BRA, BRZ and the reserved opcode 9 (43_control.md). -/

namespace Sys2Proof.Machine

/-- HLT: the operand is ignored (43_control.md R67, 30_encoding.md R40). -/
def execHlt (_operand : Nat) (s : State) : StepResult := .next (clearRunning s)

/-- BRA (43_control.md R68). -/
def execBra (operand : Nat) (s : State) : StepResult := .next (branchTo operand s)

/-- BRZ (43_control.md R69). -/
def execBrz (operand : Nat) (s : State) : StepResult :=
  .next (if accIsZero s then branchTo operand s else s)

/-- Opcode 9: no operation, not an error (43_control.md R70, 30_encoding.md R42). -/
def execReserved9 (_operand : Nat) (s : State) : StepResult := .next s

end Sys2Proof.Machine
end

