-- ==== Sys2Proof/Machine/InputOutput.lean ====
section
/-! DEFINITION. INP and OUT (44_io.md). Neither uses an address (44_io.md R74). -/

namespace Sys2Proof.Machine

/-- INP: the element is consumed before the guarded write, which drops it when it is outside [0, 999] (44_io.md R72,
decision D4, log entry 8). -/
def execInp (_operand : Nat) (s : State) : StepResult :=
  .next (accWrite (takeInput s).1 (takeInput s).2)

/-- OUT (44_io.md R73). -/
def execOut (_operand : Nat) (s : State) : StepResult := .next (putOutput s.acc s)

end Sys2Proof.Machine
end

