-- ==== Sys2Proof/Machine/LoadStore.lean ====
section
/-! DEFINITION. STA and LDA (42_load_store.md). -/

namespace Sys2Proof.Machine

/-- STA (42_load_store.md R64). -/
def execSta (operand : Nat) (s : State) : StepResult :=
  .next (writeOperand operand (s.acc : Int) s)

/-- LDA (42_load_store.md R65). -/
def execLda (operand : Nat) (s : State) : StepResult :=
  .next (accWrite (readOperand operand s : Int) s)

end Sys2Proof.Machine
end

