-- ==== Sys2Proof/Machine/Execute.lean ====
section
/-! DEFINITION. The execute phase on an opcode and an operand (40_step_cycle.md R55), and the pseudo-instruction DAT. -/

namespace Sys2Proof.Machine

/-- `execute(opcode, operand)`: dispatch on the opcode alone; any value but 0 to 8 does nothing (40_step_cycle.md R55). -/
def execute (opcode operand : Nat) (s : State) : StepResult :=
  match opcode with
  | 0 => execHlt operand s
  | 1 => execAdd operand s
  | 2 => execSub operand s
  | 3 => execSta operand s
  | 4 => execLda operand s
  | 5 => execBra operand s
  | 6 => execBrz operand s
  | 7 => execInp operand s
  | 8 => execOut operand s
  | _ => execReserved9 operand s

/-- What the cell of a loaded `DAT v` line holds: `v`, or the reset value when `v` is above 999, since the Loader drops
such a word (45_assembler.md R87, 20_memory.md R35). -/
def datCell (v : Nat) : Nat := if v ≤ Config.wordMax then v else Memory.unlisted

/-- DAT is no executable opcode; a cell made by it that the program counter reaches is executed as whatever its value
decodes to (30_encoding.md R41, 45_assembler.md R87). DEDUCED, log entry 7. -/
def execDat (v : Nat) (s : State) : StepResult :=
  execute (splitWord (datCell v)).1 (splitWord (datCell v)).2 s

end Sys2Proof.Machine
end

