-- ==== Sys2Proof/Machine/Dispatch.lean ====
section
/-! DEFINITION. One arm per row of spec/opcode_table.json, each one call of that instruction's meaning. -/

namespace Sys2Proof.Machine

def exec (i : Instr) (s : State) : Host.Outcome State Fault Refusal :=
  match i with
  | .hlt operand => Sys2Proof.Machine.execHlt operand s
  | .add operand => Sys2Proof.Machine.execAdd operand s
  | .sub operand => Sys2Proof.Machine.execSub operand s
  | .sta operand => Sys2Proof.Machine.execSta operand s
  | .lda operand => Sys2Proof.Machine.execLda operand s
  | .bra operand => Sys2Proof.Machine.execBra operand s
  | .brz operand => Sys2Proof.Machine.execBrz operand s
  | .inp operand => Sys2Proof.Machine.execInp operand s
  | .out operand => Sys2Proof.Machine.execOut operand s
  | .reserved9 operand => Sys2Proof.Machine.execReserved9 operand s
  | .dat value => Sys2Proof.Machine.execDat value s

end Sys2Proof.Machine
end

