-- ==== Sys2Proof/Machine/Fetch.lean ====
section
/-! DEFINITION. What a step does around the execute phase: when it is enabled, the fetch, the increment, the decode of
the fetched copy (40_step_cycle.md R52 to R54); and placing a word where the next fetch reads it. -/

namespace Sys2Proof.Machine

/-- A step is enabled exactly in state running (40_step_cycle.md R52). -/
def stepEnabled (s : State) : Bool := s.running

/-- A step requested in state halted: none is taken (40_step_cycle.md R52, decision D2, log entry 2). -/
def haltedOutcome (_s : State) : StepResult := .fault .halted

/-- `word <- MemRead(pc, 1)` (40_step_cycle.md R53). -/
def fetchWord (s : State) : Nat := memRead (s.pc : Int) s

/-- `PcWrite(pc + 1)`: at 99 the increment is dropped (40_step_cycle.md R54). -/
def advancePc (s : State) : State := pcWrite ((s.pc : Int) + 1) s

/-- The instruction the fetched word decodes to (30_encoding.md R38). -/
def fetchInstr (s : State) : Except CodecError Instr := decode (fetchWord s)

/-- A fetched word that the decoder gives no meaning (log entry 4). -/
def undecodable (s : State) : StepResult := .refused (.wordOutOfRange (fetchWord s))

/-- `s` in state running with the word `w` in the cell at the program counter (log entry 6). -/
def placeWord (w : Nat) (s : State) : State := { memWrite (s.pc : Int) (w : Int) s with running := true }

/-- `s` with the word of an opcode-table bit pattern placed; nothing is placed when the pattern is no word's image. -/
def placeTableWord (nbits w : Nat) (s : State) : State :=
  match wordOfTableBits nbits w with
  | some v => placeWord v s
  | none => s

end Sys2Proof.Machine
end

