-- ==== Sys2Proof/Machine/Step.lean ====
section
/-! DEFINITION. One step of the engine (40_step_cycle.md R53): fetch, increment, decode, execute. -/

namespace Sys2Proof.Machine

/-- The transition rule, in exactly the order of 40_step_cycle.md R53. -/
def step (s : State) : Host.Outcome State Fault Refusal :=
  if stepEnabled s then
    match fetchInstr s with
    | .ok i => exec i (advancePc s)
    | .error _ => undecodable s
  else haltedOutcome s

/-- `s` with the instruction of the opcode-table bits `w` stored where `step` fetches next, and the run flag set, which
the fetch needs (log entry 6). -/
def State.withFetchWord (s : State) (nbits w : Nat) : State := placeTableWord nbits w s

end Sys2Proof.Machine
end

