-- ==== Sys2Proof/Machine/Accessors.lean ====
section
/-! DEFINITION. The host's read-only accessors (10_state.md R14). None changes a state. -/

namespace Sys2Proof.Machine

/-- The host's read of memory at any integer address (10_state.md R14, 20_memory.md R23). -/
def hostMemory (a : Int) (s : State) : Nat := memRead a s

/-- The host's read of the accumulator. -/
def hostAccumulator (s : State) : Nat := s.acc

/-- The host's read of the program counter. -/
def hostProgramCounter (s : State) : Nat := s.pc

/-- The host's read of the input queue. -/
def hostInputQueue (s : State) : List Int := s.inq

/-- The host's read of the output queue. -/
def hostOutputQueue (s : State) : List Nat := s.outq

/-- The host's read of the run flag (10_state.md R14, 91_not_in_source.md N30). -/
def hostRunning (s : State) : Bool := s.running

/-- `to_text(MemRead(pc, 1))`: the text of the instruction at the program counter (10_state.md R14, 60_exceptions.md
R114). -/
def hostCurrentText (s : State) : Except CodecError Text := toText (memRead (s.pc : Int) s)

end Sys2Proof.Machine
end

