-- ==== Sys2Proof/Machine/Lexical.lean ====
section
/-! DEFINITION. Source text, lines, comments, white space, tokens, numerals and labels (45_assembler.md section 2 and
R84, 46_label_table_resolver.md R92). -/

namespace Sys2Proof.Asm

/-- The raw lines of a text: the pieces between line feeds (45_assembler.md R76 "newline-separated", R77). DEDUCED: a
text that ends in a line feed has an empty last raw line (log entry 19). -/
def splitLines : Text → List Text
  | [] => [[]]
  | c :: cs =>
    if c = '\n' then [] :: splitLines cs
    else match splitLines cs with
      | l :: ls => (c :: l) :: ls
      | [] => [[c]]

/-- Discard the first and the last raw line, whatever they hold; fewer than two lines leave none (45_assembler.md R76,
decision D18). -/
def bodyLines (raw : List Text) : List Text := raw.tail.dropLast

/-- Remove the comment, from the first `//` to the end of the line (45_assembler.md R77). -/
def removeComment : Text → Text
  | [] => []
  | c :: cs => if c = '/' ∧ cs.head? = some '/' then [] else c :: removeComment cs

/-- White space inside a line: space, tab, carriage return (45_assembler.md R77, R78, decision D19, log entry 20). -/
def isSpace (c : Char) : Bool := c == ' ' || c == '\t' || c == '\r'

/-- Trim leading and trailing white space (45_assembler.md R77). -/
def trim (l : Text) : Text := ((l.dropWhile isSpace).reverse.dropWhile isSpace).reverse

/-- The cleaned lines of a text, in order, blank ones dropped (45_assembler.md R76, R77). -/
def cleanedLines (text : Text) : List Text :=
  ((bodyLines (splitLines text)).map fun l => trim (removeComment l)).filter fun l => !l.isEmpty

/-- Put the character `c` before the tokens of the rest of the line: a token of its own when the rest begins with white
space or is empty, else the start of the first token. -/
def consToken (c : Char) (ends : Bool) (ts : List Text) : List Text :=
  if ends then [c] :: ts
  else match ts with
    | t :: ts => (c :: t) :: ts
    | [] => [[c]]

/-- The maximal runs of characters that are not white space (45_assembler.md R78). -/
def tokens : Text → List Text
  | [] => []
  | c :: cs => if isSpace c then tokens cs else consToken c (cs.head?.all isSpace) (tokens cs)

/-- An ASCII letter (46_label_table_resolver.md R92, decision D11, parameter `LABEL_ALPHABET`, log entry 15). -/
def isLabelLetter (c : Char) : Bool :=
  (decide (65 ≤ c.toNat) && decide (c.toNat ≤ 90)) || (decide (97 ≤ c.toNat) && decide (c.toNat ≤ 122))

/-- One of the ten reserved words (30_encoding.md R46). -/
def isReserved (t : Text) : Bool := reservedWords.contains t

/-- A well-formed label: letters only, not empty, not a reserved word (46_label_table_resolver.md R92). -/
def isLabel (t : Text) : Bool := !t.isEmpty && t.all isLabelLetter && !isReserved t

/-- An ASCII digit. -/
def isDigit (c : Char) : Bool := decide (48 ≤ c.toNat) && decide (c.toNat ≤ 57)

/-- A decimal numeral: one or more ASCII digits (45_assembler.md R84, decision D24, log entry 18). -/
def isNumeral (t : Text) : Bool := !t.isEmpty && t.all isDigit

/-- The value of a decimal numeral, leading zeros allowed (45_assembler.md R84). -/
def numeralValue (t : Text) : Nat := Nat.ofDigitChars 10 t 0

end Sys2Proof.Asm
end

