-- ==== Sys2Proof/Machine/Records.lean ====
section
/-! DEFINITION. Classifying lines into Assembly Line Records and giving them addresses (45_assembler.md section 3). -/

namespace Sys2Proof.Asm

/-- What a cleaned line is (45_assembler.md R79 to R82). -/
inductive Shape where
  /-- A line whose only token is a well-formed label (46_label_table_resolver.md R98). -/
  | bareLabel (name : Text)
  /-- An Assembly Line Record: label or absence, mnemonic or raw value, operand token or absence. -/
  | record (label : Option Text) (mnemonic : Text) (operand : Option Text)
  /-- A line that is none of the shapes (45_assembler.md R81, R82, decision D15). -/
  | malformed
deriving DecidableEq, Repr

/-- One token (45_assembler.md R79). -/
def classifyOne (t : Text) : Shape :=
  if isReserved t then .record none t none
  else if isLabel t then .bareLabel t
  else .record none t none

/-- Two tokens (45_assembler.md R80). -/
def classifyTwo (t1 t2 : Text) : Shape :=
  if isReserved t1 then .record none t1 (some t2)
  else if isReserved t2 && isLabel t1 then .record (some t1) t2 none
  else .record none t1 (some t2)

/-- Three tokens (45_assembler.md R81). -/
def classifyThree (t1 t2 t3 : Text) : Shape :=
  if isLabel t1 && isReserved t2 then .record (some t1) t2 (some t3) else .malformed

/-- The shape of a line's tokens; four or more are malformed (45_assembler.md R82), and a cleaned line has at least one
(R78). -/
def classify : List Text → Shape
  | [t] => classifyOne t
  | [t1, t2] => classifyTwo t1 t2
  | [t1, t2, t3] => classifyThree t1 t2 t3
  | _ => .malformed

/-- A cleaned line with its address, its text and its shape. -/
structure Line where
  /-- The address the line's word is loaded at (45_assembler.md R83). -/
  addr : Nat
  /-- The cleaned text, which a rejected entry reports (45_assembler.md R86, decision D17). -/
  text : Text
  /-- The line's shape. -/
  shape : Shape
deriving DecidableEq, Repr

/-- Number the cleaned lines from address `a` on; a bare-label line takes no address, a malformed one does
(45_assembler.md R83, decision D25). -/
def numberLines : Nat → List Text → List Line
  | _, [] => []
  | a, l :: ls =>
    match classify (tokens l) with
    | .bareLabel name => { addr := a, text := l, shape := .bareLabel name } :: numberLines a ls
    | .record lab m op => { addr := a, text := l, shape := .record lab m op } :: numberLines (a + 1) ls
    | .malformed => { addr := a, text := l, shape := .malformed } :: numberLines (a + 1) ls

/-- Pass 1 over a text: every line classified and given its address (46_label_table_resolver.md R94). -/
def programLines (text : Text) : List Line := numberLines 0 (cleanedLines text)

end Sys2Proof.Asm
end

