-- ==== Sys2Proof/Machine/Resolver.lean ====
section
/-! DEFINITION. The Label Table and the resolver (46_label_table_resolver.md). One table: the source's two have this
net effect (R96); no aliasing exists in the language the spec admits (R97, decision D16, log entry 16). -/

namespace Sys2Proof.Asm

/-- The Label Table: label name to the address of the line that declares it (46_label_table_resolver.md R91). -/
abbrev LabelTable := List (Text × Nat)

/-- What a line declares: the label that stands before its instruction or DAT, bound to the line's address
(46_label_table_resolver.md R93, decision D20, log entry 17). -/
def declaration (l : Line) : Option (Text × Nat) :=
  match l.shape with
  | .record (some name) _ _ => some (name, l.addr)
  | .record none _ _ => none
  | .bareLabel _ => none
  | .malformed => none

/-- The table after pass 1, complete before any operand is resolved (46_label_table_resolver.md R94). -/
def labelTable (lines : List Line) : LabelTable := lines.filterMap declaration

/-- The name of a bare-label line (46_label_table_resolver.md R98). -/
def bareName (l : Line) : Option Text :=
  match l.shape with
  | .bareLabel name => some name
  | .record _ _ _ => none
  | .malformed => none

/-- The first name that a later one repeats. -/
def firstDuplicate : List Text → Option Text
  | [] => none
  | n :: ns => if ns.contains n then some n else firstDuplicate ns

/-- Why a text has no assembly result. -/
inductive Refused where
  /-- A bare-label line (46_label_table_resolver.md R98, decision D14, log entry 16). Safe. -/
  | bareLabel (name : Text)
  /-- A label declared on two lines (46_label_table_resolver.md R99, decision D12, log entry 16). Safe. -/
  | duplicateLabel (name : Text)
deriving DecidableEq, Repr

/-- Whether the resolver refuses the program, and why (46_label_table_resolver.md R98, R99). -/
def refusal (lines : List Line) : Option Refused :=
  match (lines.filterMap bareName).head? with
  | some name => some (.bareLabel name)
  | none => (firstDuplicate ((labelTable lines).map Prod.fst)).map Refused.duplicateLabel

/-- `resolve(token, table)`: absent is 0, a numeral its value, a declared label its address, anything else a failure
(46_label_table_resolver.md R95, R100, decision D13). -/
def resolveOperand (table : LabelTable) : Option Text → Option Nat
  | none => some 0
  | some t => if isNumeral t then some (numeralValue t) else table.lookup t

end Sys2Proof.Asm
end

