-- ==== Sys2Proof/Machine/Assembler.lean ====
section
/-! DEFINITION. The two-pass assembler (45_assembler.md section 4 and the algorithm of section 5). It depends on the
codec only, on no machine state (00_scope.md R2, 46_label_table_resolver.md R102). -/

namespace Sys2Proof.Asm

/-- An entry of the rejected list: the failing line's address and cleaned text (45_assembler.md R86, decision D17, log
entry 21). -/
structure Rejected where
  /-- The line's address. -/
  addr : Nat
  /-- The line's cleaned text. -/
  text : Text
deriving DecidableEq, Repr

/-- What `assemble` gives: its two lists, or no result (45_assembler.md R75, R90). -/
inductive Result where
  /-- The accepted words and the rejected lines, each in source order (45_assembler.md R86). -/
  | lists (accepted : List Nat) (rejected : List Rejected)
  /-- The spec gives the text no assembly result (46_label_table_resolver.md R98, R99). -/
  | refused (why : Refused)
deriving DecidableEq, Repr

/-- Pass 2 on one line: its word, or none when it is rejected (45_assembler.md R86). -/
def encodeLine (table : LabelTable) (l : Line) : Option Nat :=
  match l.shape with
  | .record _ m op =>
    match resolveOperand table op with
    | some n => (encodeMnemonic m n).toOption
    | none => none
  | .bareLabel _ => none
  | .malformed => none

/-- The accepted list of pass 2 (45_assembler.md R86). -/
def acceptedWords (table : LabelTable) (lines : List Line) : List Nat := lines.filterMap (encodeLine table)

/-- The rejected list of pass 2 (45_assembler.md R86). -/
def rejectedLines (table : LabelTable) (lines : List Line) : List Rejected :=
  (lines.filter fun l => (encodeLine table l).isNone).map fun l => { addr := l.addr, text := l.text }

/-- Pass 2 over the lines of a program (46_label_table_resolver.md R94, 45_assembler.md R86). -/
def assembleLines (lines : List Line) : Result :=
  match refusal lines with
  | some why => .refused why
  | none => .lists (acceptedWords (labelTable lines) lines) (rejectedLines (labelTable lines) lines)

/-- `assemble(text)` (45_assembler.md R75, section 5). -/
def assemble (text : Text) : Result := assembleLines (programLines text)

/-- Read an instruction's text, a mnemonic and an optional numeral, as the source's encoder does over a linearised line
(45_assembler.md R85, R86) and as the round trip of 30_encoding.md R49 does; an absent operand is 0. -/
def encodeText (t : Text) : Except CodecError Nat :=
  match tokens t with
  | [m] => encodeMnemonic m 0
  | [m, n] => if isNumeral n then encodeMnemonic m (numeralValue n) else .error .translationFailure
  | _ => .error .translationFailure

end Sys2Proof.Asm
end

