-- ==== Sys2Proof/Machine/Loader.lean ====
section
/-! DEFINITION. Reset and the Loader, the only boot path (70_reset_and_hazards.md section 1). -/

namespace Sys2Proof.Machine

/-- Reset: all six fields at once, whatever the state was, in either engine state (70_reset_and_hazards.md R116). -/
def resetMachine (_s : State) : State := State.reset

/-- `MemWrite(i, 1, program[i])` for the words of a program from address `i` on (70_reset_and_hazards.md R117); words
beyond cell 99 or outside [0, 999] are dropped by the guard (20_memory.md R35). -/
def writeProgram : Nat → List Int → State → State
  | _, [], s => s
  | i, w :: ws, s => writeProgram (i + 1) ws (memWrite (i : Int) w s)

/-- Set the whole input queue, replacing, not appending (70_reset_and_hazards.md R119). -/
def installInput (input : List Int) (s : State) : State := { s with inq := input }

/-- `load(program, input_data)` (70_reset_and_hazards.md R117). -/
def load (program input : List Int) (s : State) : State :=
  installInput input (writeProgram 0 program (resetMachine s))

/-- What `assemble_then_load` tells its caller. -/
inductive LoadResult where
  /-- The program was loaded; the machine is now `s`. -/
  | loaded (s : State)
  /-- Aggregate load failure (60_exceptions.md R109): every failing line, and the machine as it was. -/
  | reported (lines : List Asm.Rejected) (s : State)
  /-- A text the spec gives no assembly result (46_label_table_resolver.md R98, R99). -/
  | refused (why : Asm.Refused)
deriving DecidableEq, Repr

/-- `assemble_then_load(text, input_data)` (70_reset_and_hazards.md R118). -/
def assembleThenLoad (text : Text) (input : List Int) (s : State) : LoadResult :=
  match Asm.assemble text with
  | .lists accepted [] => .loaded (load (accepted.map Int.ofNat) input s)
  | .lists _ (r :: rs) => .reported (r :: rs) s
  | .refused why => .refused why

end Sys2Proof.Machine
end

