-- ==== Sys2Proof/Machine/Run.lean ====
section
/-! DEFINITION. `run` and the end of a run (40_step_cycle.md R56, R57). -/

namespace Sys2Proof.Machine

/-- `while running do step`, under fuel supplied from outside the machine (40_step_cycle.md R56, decision D22, log entry
22). It stops early, without a step, in the first state that is halted. -/
def runFor : Nat → State → StepResult
  | 0, s => .next s
  | fuel + 1, s =>
    if s.running then
      match step s with
      | .next t => runFor fuel t
      | .fault r => .fault r
      | .refused r => .refused r
    else .next s

/-- `run` returns, and leaves `t`: the first halted state is reached (40_step_cycle.md R56, R57). -/
def RunEnds (s t : State) : Prop := ∃ fuel, runFor fuel s = .next t ∧ t.running = false

end Sys2Proof.Machine
end

