-- ==== Sys2Proof/Safety.lean ====
section
/-! DEFINITION. The range invariant of the machine and the states the Loader and the engine reach (10_state.md R15,
R16). -/

namespace Sys2Proof.Machine

/-- The range invariant (10_state.md R15): memory in its canonical form with every cell in [0, 999], the accumulator in
[0, 999], the program counter in [0, 99], every output element in [0, 999]. The input queue is not bounded (R10). -/
abbrev State.Inv (s : State) : Prop :=
  Memory.wf s.mem = true ∧ s.acc ≤ Config.accMax ∧ s.pc < Config.pcLimit ∧ ∀ v ∈ s.outq, v ≤ Config.accMax

/-- The states reachable from reset by Loader and engine actions (10_state.md R15, R16): the state is mutated by these
alone, one action at a time (20_memory.md R34, decision D21, log entry 23). -/
inductive Reachable : State → Prop where
  /-- The machine right after reset. -/
  | reset : Reachable State.reset
  /-- The Loader's `load` of any program and any input. -/
  | load (program input : List Int) {s : State} : Reachable s → Reachable (load program input s)
  /-- One step of the engine. -/
  | step {s t : State} : Reachable s → Machine.step s = .next t → Reachable t

end Sys2Proof.Machine
end

