-- ==== Sys2Proof/Certificates/Slice0/Obligations.lean ====
section
/-! DEFINITION. The statements for the provers, file by file of spec/. A `stated` one formalises a numbered rule; one that
rests on a decision of the spec (92_eei_decisions.md) or on a log entry says so. Statements that could fail only in states
no run reaches carry the range invariant `State.Inv`, which `ResetMeetsRangeInvariant`, `LoadMeetsRangeInvariant` and
`StepKeepsRangeInvariant` state of its own. -/

open Sys2Proof Sys2Proof.Machine Sys2Proof.Asm

/-! ### 10_state.md and 20_memory.md: state, reset, the guarded accessors -/

/-- 10_state.md R19, 70_reset_and_hazards.md R116. The zeros of memory and accumulator and the empty input queue are the
spec's decision D1 (log entry 1). -/
def Obligations.ResetSetsAllSixFields : Prop :=
  ∀ s : State, (resetMachine s).running = true ∧ (resetMachine s).pc = 0 ∧ (resetMachine s).outq = [] ∧
    (resetMachine s).acc = 0 ∧ (resetMachine s).inq = [] ∧ ∀ a : Int, memRead a (resetMachine s) = 0

/-- 20_memory.md R23. -/
def Obligations.MemoryReadIsGuarded : Prop :=
  ∀ (a : Int) (s : State), (0 ≤ a → a ≤ 99 → memRead a s = Memory.cell s.mem a.toNat) ∧
    (a < 0 ∨ 99 < a → memRead a s = 0)

/-- 20_memory.md R24: a performed write changes exactly the one cell, a dropped one nothing. -/
def Obligations.MemoryWriteIsGuarded : Prop :=
  ∀ (a v : Int) (s : State), Memory.wf s.mem = true →
    (0 ≤ a → a ≤ 99 → 0 ≤ v → v ≤ 999 →
      (memRead a (memWrite a v s) : Int) = v ∧ (∀ b : Int, b ≠ a → memRead b (memWrite a v s) = memRead b s) ∧
        memWrite a v s = { s with mem := (memWrite a v s).mem } ∧ Memory.wf (memWrite a v s).mem = true) ∧
    (a < 0 ∨ 99 < a ∨ v < 0 ∨ 999 < v → memWrite a v s = s)

/-- 10_state.md R13. -/
def Obligations.RegisterWritesAreGuarded : Prop :=
  ∀ (v : Int) (s : State),
    (0 ≤ v → v ≤ 999 → accWrite v s = { s with acc := v.toNat }) ∧ (v < 0 ∨ 999 < v → accWrite v s = s) ∧
    (0 ≤ v → v ≤ 99 → pcWrite v s = { s with pc := v.toNat }) ∧ (v < 0 ∨ 99 < v → pcWrite v s = s)

/-- 10_state.md R14: every read accessor gives its field, the text accessor the text of the word at the program counter. -/
def Obligations.HostAccessorsReadTheFields : Prop :=
  ∀ s : State, hostAccumulator s = s.acc ∧ hostProgramCounter s = s.pc ∧ hostInputQueue s = s.inq ∧
    hostOutputQueue s = s.outq ∧ hostRunning s = s.running ∧ (∀ a, hostMemory a s = memRead a s) ∧
    (∀ a : Int, a < 0 ∨ 99 < a → hostMemory a s = 0) ∧ hostCurrentText s = toText (memRead (s.pc : Int) s)

/-- 10_state.md R12: true at reset, set false by the halt instruction alone, set true again by reset alone. That a step which
answers a next state started with `running` true, so that a halted state has no next one, is no rule of the spec: it is its
decision D2, which the model writes as a named stop (log entry 2, the model's choice). -/
def Obligations.RunFlagClearedOnlyByHalt : Prop :=
  State.reset.running = true ∧ (∀ s : State, (resetMachine s).running = true) ∧
    ∀ s t : State, step s = .next t → s.running = true ∧ (t.running = false ↔ memRead (s.pc : Int) s < 100)

/-! ### 30_encoding.md: the codec -/

/-- 30_encoding.md R38. That a word above 999 has no meaning is the spec's decision D23 (log entry 4). -/
def Obligations.DecodeSplitsEveryWord : Prop :=
  ∀ w : Nat, (w ≤ 999 → decode w = .ok (instrOf (w / 100) (w % 100)) ∧ splitWord w = (w / 100, w % 100) ∧
      w / 100 ≤ 9 ∧ w % 100 ≤ 99 ∧ w / 100 * 100 + w % 100 = w) ∧
    (999 < w → decode w = .error .wordOutOfRange)

/-- 30_encoding.md R39: each mnemonic names its opcode, and the words of an opcode are its row's. -/
def Obligations.DecoderFollowsOpcodeMap : Prop :=
  ∀ n : Nat, n ≤ 99 →
    decode n = .ok (.hlt n) ∧ decode (100 + n) = .ok (.add n) ∧ decode (200 + n) = .ok (.sub n) ∧
    decode (300 + n) = .ok (.sta n) ∧ decode (400 + n) = .ok (.lda n) ∧ decode (500 + n) = .ok (.bra n) ∧
    decode (600 + n) = .ok (.brz n) ∧ decode (700 + n) = .ok (.inp n) ∧ decode (800 + n) = .ok (.out n) ∧
    decode (900 + n) = .ok (.reserved9 n) ∧
    mnemonicOf 0 = some "HLT".toList ∧ mnemonicOf 1 = some "ADD".toList ∧ mnemonicOf 2 = some "SUB".toList ∧
    mnemonicOf 3 = some "STA".toList ∧ mnemonicOf 4 = some "LDA".toList ∧ mnemonicOf 5 = some "BRA".toList ∧
    mnemonicOf 6 = some "BRZ".toList ∧ mnemonicOf 7 = some "INP".toList ∧ mnemonicOf 8 = some "OUT".toList ∧
    ∀ k, 9 ≤ k → mnemonicOf k = none

/-- 30_encoding.md R37 to R39: no digit of an instruction is dropped, for every executable row and every operand. -/
def Obligations.DecodeOfEncodeIsTheInstruction : Prop :=
  ∀ i : Instr, i.wellFormed = true → i.isPseudo = false → decode (encode i) = .ok i

/-- 30_encoding.md R38, R41: every word decodes to a well-formed executable instruction whose word it is. -/
def Obligations.EncodeOfDecodeIsTheWord : Prop :=
  ∀ (w : Nat) (i : Instr), decode w = .ok i → encode i = w ∧ i.wellFormed = true ∧ i.isPseudo = false

/-- 30_encoding.md R44 to R46. That no operand is checked, that DAT gives its value and that only the exact upper-case
spelling is recognised are the spec's decisions D8, D9, D10 (log entries 12, 13, 14). -/
def Obligations.MnemonicEncoderFollowsFormula : Prop :=
  ∀ (name : Text) (n : Nat),
    (∀ k, (name, k) ∈ opcodeMap → encodeMnemonic name n = .ok (k * 100 + n)) ∧
    (name = "DAT".toList → encodeMnemonic name n = .ok n) ∧
    (name ∉ reservedWords → encodeMnemonic name n = .error .translationFailure)

/-- 30_encoding.md R47: the asymmetric operand rule, what a decimal numeral is, and the source's four examples. -/
def Obligations.ToTextOmitsOperandOfHaltAndZero : Prop :=
  (∀ w : Nat, w ≤ 899 → ∃ m, mnemonicOf (w / 100) = some m ∧
    toText w = .ok (if w / 100 = 0 ∨ w % 100 = 0 then m else m ++ ' ' :: decimal (w % 100))) ∧
  (∀ n : Nat, isNumeral (decimal n) = true ∧ numeralValue (decimal n) = n ∧
    (n ≠ 0 → (decimal n).head? ≠ some '0') ∧ (n = 0 → decimal n = ['0'])) ∧
  toText 0 = .ok "HLT".toList ∧ toText 107 = .ok "ADD 7".toList ∧ toText 700 = .ok "INP".toList ∧
  toText 800 = .ok "OUT".toList

/-- 30_encoding.md R48: the spec's decision D7 (log entry 11). -/
def Obligations.NoTextForOpcodeNine : Prop :=
  ∀ w : Nat, 900 ≤ w → toText w = .error .noText

/-- 30_encoding.md R49: the text of a word reads back as the word for 0 and 100 to 899, a text of 1 to 99 as 0, and an
encoded in-range operand decodes to its opcode and operand. -/
def Obligations.TextRoundTrip : Prop :=
  (∀ w : Nat, w = 0 ∨ 100 ≤ w ∧ w ≤ 899 → ∃ t, toText w = .ok t ∧ encodeText t = .ok w) ∧
  (∀ w : Nat, 1 ≤ w → w ≤ 99 → ∃ t, toText w = .ok t ∧ encodeText t = .ok 0) ∧
  (∀ (m : Text) (k n : Nat), (m, k) ∈ opcodeMap → n ≤ 99 →
    ∃ w, encodeMnemonic m n = .ok w ∧ w ≤ 999 ∧ splitWord w = (k, n))

/-- 30_encoding.md R50: the table's image of a word selects the row of its opcode and decodes to its instruction. The image
is notation (decision D3, log entry 5). -/
def Obligations.TableImageDecodesAsTheWord : Prop :=
  ∀ w : Nat, w ≤ 999 → bcd w < 4096 ∧ bcd w / 256 = w / 100 ∧ decodeTableWord 16 (bcd w) = (decode w).toOption ∧
    decodeTableWord 12 (bcd w) = (decode w).toOption

/-- 30_encoding.md R39, R42: one word of each row, written out from the table. -/
def Obligations.HandWrittenWordsDecode : Prop :=
  decode 77 = .ok (.hlt 77) ∧ decode 107 = .ok (.add 7) ∧ decode 250 = .ok (.sub 50) ∧ decode 399 = .ok (.sta 99) ∧
  decode 401 = .ok (.lda 1) ∧ decode 500 = .ok (.bra 0) ∧ decode 699 = .ok (.brz 99) ∧ decode 705 = .ok (.inp 5) ∧
  decode 812 = .ok (.out 12) ∧ decode 950 = .ok (.reserved9 50)

/-! ### 40_step_cycle.md: the step and the run -/

/-- 40_step_cycle.md R53: the fetched word is executed after the increment, on the fetched copy; a step of a running machine
answers exactly one next state. -/
def Obligations.StepRunsTheDecodedInstruction : Prop :=
  (∀ (s : State) (i : Instr), s.running = true → decode (memRead (s.pc : Int) s) = .ok i →
    step s = exec i (pcWrite ((s.pc : Int) + 1) s)) ∧
  (∀ s : State, s.Inv → s.running = true → ∃ t, step s = .next t ∧ ∀ u, step s = .next u → u = t)

/-- 40_step_cycle.md R54: the increment, and the last cell, which is fetched again. -/
def Obligations.IncrementIsDroppedAtTheLastCell : Prop :=
  (∀ s : State, s.pc ≤ 98 → pcWrite ((s.pc : Int) + 1) s = { s with pc := s.pc + 1 }) ∧
  (∀ s : State, s.pc = 99 → pcWrite ((s.pc : Int) + 1) s = s) ∧
  (∀ s t : State, s.Inv → s.pc = 99 → 100 ≤ memRead 99 s → memRead 99 s / 100 ≠ 5 →
    ¬ (memRead 99 s / 100 = 6 ∧ s.acc = 0) → step s = .next t → t.pc = 99 ∧ t.running = true) ∧
  (∀ s t : State, s.pc = 99 → memRead 99 s ≤ 99 → step s = .next t → t.pc = 99 ∧ t.running = false)

/-- 40_step_cycle.md R55: the source's execute list, every write through its accessor's guard. The INP clause holds for every
front element; that one outside [0, 999] is consumed all the same is the spec's decision D4 (log entry 8, DESIGN CHOICE). -/
def Obligations.ExecuteFollowsTheOpcodeList : Prop :=
  ∀ (n : Nat) (s : State),
    exec (instrOf 0 n) s = .next { s with running := false } ∧
    exec (instrOf 1 n) s = .next (accWrite ((s.acc : Int) + memRead (n : Int) s) s) ∧
    exec (instrOf 2 n) s = .next (accWrite ((s.acc : Int) - memRead (n : Int) s) s) ∧
    exec (instrOf 3 n) s = .next (memWrite (n : Int) (s.acc : Int) s) ∧
    exec (instrOf 4 n) s = .next (accWrite (memRead (n : Int) s : Int) s) ∧
    exec (instrOf 5 n) s = .next (pcWrite (n : Int) s) ∧
    exec (instrOf 6 n) s = .next (if s.acc = 0 then pcWrite (n : Int) s else s) ∧
    (s.inq = [] → exec (instrOf 7 n) s = .next (accWrite 0 s)) ∧
    (∀ v rest, s.inq = v :: rest → exec (instrOf 7 n) s = .next (accWrite v { s with inq := rest })) ∧
    exec (instrOf 8 n) s = .next { s with outq := s.outq ++ [s.acc] } ∧
    ∀ k, 9 ≤ k → exec (instrOf k n) s = .next s

/-- 40_step_cycle.md R52. That a step requested in state halted is no step is the spec's decision D2 (log entry 2). -/
def Obligations.HaltedMachineTakesNoStep : Prop :=
  ∀ s : State, s.running = false → step s = .fault .halted ∧ ∀ fuel, runFor fuel s = .next s

/-- 40_step_cycle.md R58: every instruction answers a next state in every state, and no step of a running machine fails. -/
def Obligations.NoStepFails : Prop :=
  (∀ (i : Instr) (s : State), ∃ t, exec i s = .next t) ∧
  (∀ s : State, s.Inv → s.running = true → ∃ t, step s = .next t)

/-- 40_step_cycle.md R56, R59: running `j` and then `k` steps is running `j + k`. -/
def Obligations.RunIsRepeatedStep : Prop :=
  (∀ (j k : Nat) (s t : State), runFor j s = .next t → runFor (j + k) s = runFor k t) ∧
  (∀ s : State, s.running = true → runFor 1 s = step s)

/-- 40_step_cycle.md R57: a run ends only by executing a word with opcode 0, and the state it leaves. -/
def Obligations.RunEndsOnlyByHalt : Prop :=
  ∀ (fuel : Nat) (s t : State), s.running = true → runFor fuel s = .next t → t.running = false →
    ∃ (k : Nat) (u : State), k < fuel ∧ runFor k s = .next u ∧ u.running = true ∧ memRead (u.pc : Int) u < 100 ∧
      t = { u with pc := if u.pc < 99 then u.pc + 1 else u.pc, running := false }

/-- 40_step_cycle.md R56, 43_control.md R68: a branch to itself is an endless loop that changes nothing. -/
def Obligations.BranchToItselfNeverEnds : Prop :=
  ∀ s : State, s.running = true → s.pc ≤ 99 → memRead (s.pc : Int) s = 500 + s.pc →
    ∀ fuel, runFor fuel s = .next s

/-! ### 41_arithmetic.md -/

/-- 41_arithmetic.md R61: the encoding, the mnemonic, and the exact sum stored or dropped. -/
def Obligations.AddStoresExactSumOrKeeps : Prop :=
  ∀ n : Nat, n ≤ 99 → decode (100 + n) = .ok (.add n) ∧ encodeMnemonic "ADD".toList n = .ok (100 + n) ∧
    ∀ s : State, exec (.add n) s =
      .next (if s.acc + memRead (n : Int) s ≤ 999 then { s with acc := s.acc + memRead (n : Int) s } else s)

/-- 41_arithmetic.md R62: the encoding, the mnemonic, and the exact difference stored or dropped. -/
def Obligations.SubStoresExactDifferenceOrKeeps : Prop :=
  ∀ n : Nat, n ≤ 99 → decode (200 + n) = .ok (.sub n) ∧ encodeMnemonic "SUB".toList n = .ok (200 + n) ∧
    ∀ s : State, s.Inv → exec (.sub n) s =
      .next (if memRead (n : Int) s ≤ s.acc then { s with acc := s.acc - memRead (n : Int) s } else s)

/-- 41_arithmetic.md R63: what a program can rely on. -/
def Obligations.ArithmeticConsequences : Prop :=
  ∀ (n : Nat) (s : State), n ≤ 99 → s.Inv →
    (∃ t, exec (.add n) s = .next t ∧ s.acc ≤ t.acc ∧ t.acc ≤ 999) ∧
    (∃ t, exec (.sub n) s = .next t ∧ t.acc ≤ s.acc ∧ (t.acc = 0 ↔ s.acc = memRead (n : Int) s ∨ s.acc = 0)) ∧
    (s.acc + memRead (n : Int) s ≤ 999 → ∃ t, exec (.add n) s = .next t ∧ exec (.sub n) t = .next s)

/-! ### 42_load_store.md -/

/-- 42_load_store.md R64: the accumulator is copied to the one cell; no other cell and no other field changes. -/
def Obligations.StaCopiesAccumulatorToCell : Prop :=
  ∀ n : Nat, n ≤ 99 → decode (300 + n) = .ok (.sta n) ∧ encodeMnemonic "STA".toList n = .ok (300 + n) ∧
    ∀ s : State, s.Inv → ∃ t, exec (.sta n) s = .next t ∧ memRead (n : Int) t = s.acc ∧
      (∀ a : Int, a ≠ (n : Int) → memRead a t = memRead a s) ∧ t = { s with mem := t.mem }

/-- 42_load_store.md R65: the cell is copied to the accumulator. -/
def Obligations.LdaCopiesCellToAccumulator : Prop :=
  ∀ n : Nat, n ≤ 99 → decode (400 + n) = .ok (.lda n) ∧ encodeMnemonic "LDA".toList n = .ok (400 + n) ∧
    ∀ s : State, s.Inv → exec (.lda n) s = .next { s with acc := memRead (n : Int) s }

/-! ### 43_control.md -/

/-- 43_control.md R67: every word 0 to 99 halts; the step leaves the program counter one past it, or at 99; no further step
is taken. The last clause, that a halted state has no next one, is the spec's decision D2, which the model writes as a named
stop (log entry 2, the model's choice). -/
def Obligations.HltClearsTheRunFlag : Prop :=
  (∀ n : Nat, n ≤ 99 → decode n = .ok (.hlt n) ∧ ∀ s : State, exec (.hlt n) s = .next { s with running := false }) ∧
  encodeMnemonic "HLT".toList 0 = .ok 0 ∧
  (∀ s : State, s.running = true → memRead (s.pc : Int) s ≤ 99 → s.pc ≤ 98 →
    step s = .next { s with pc := s.pc + 1, running := false }) ∧
  (∀ s : State, s.running = true → memRead (s.pc : Int) s ≤ 99 → s.pc = 99 →
    step s = .next { s with running := false }) ∧
  (∀ s t : State, s.running = false → step s ≠ .next t)

/-- 43_control.md R68: the program counter becomes the operand, and nothing else changes. -/
def Obligations.BraSetsProgramCounter : Prop :=
  ∀ n : Nat, n ≤ 99 → decode (500 + n) = .ok (.bra n) ∧ encodeMnemonic "BRA".toList n = .ok (500 + n) ∧
    (∀ s : State, exec (.bra n) s = .next { s with pc := n }) ∧
    (∀ s : State, s.running = true → memRead (s.pc : Int) s = 500 + n → step s = .next { s with pc := n })

/-- 43_control.md R69: taken exactly when the accumulator is 0; not taken, the program counter keeps what the fetch left. -/
def Obligations.BrzBranchesExactlyOnZero : Prop :=
  ∀ n : Nat, n ≤ 99 → decode (600 + n) = .ok (.brz n) ∧ encodeMnemonic "BRZ".toList n = .ok (600 + n) ∧
    (∀ s : State, exec (.brz n) s = .next (if s.acc = 0 then { s with pc := n } else s)) ∧
    (∀ s : State, s.Inv → s.running = true → memRead (s.pc : Int) s = 600 + n →
      step s = .next (if s.acc = 0 then { s with pc := n }
        else if s.pc = 99 then s else { s with pc := s.pc + 1 }))

/-- 43_control.md R70: opcode 9 changes nothing; the step only advances the program counter, and at 99 changes nothing. -/
def Obligations.OpcodeNineIsNoOperation : Prop :=
  ∀ n : Nat, n ≤ 99 → decode (900 + n) = .ok (.reserved9 n) ∧
    (∀ s : State, exec (.reserved9 n) s = .next s) ∧
    (∀ s : State, s.running = true → memRead (s.pc : Int) s = 900 + n → s.pc ≤ 98 →
      step s = .next { s with pc := s.pc + 1 }) ∧
    (∀ s : State, s.running = true → memRead (s.pc : Int) s = 900 + n → s.pc = 99 → step s = .next s)

/-- 43_control.md R71, 10_state.md R9: the next fetch address after any step. -/
def Obligations.NextFetchAddress : Prop :=
  ∀ s t : State, s.Inv → step s = .next t →
    t.pc = if memRead (s.pc : Int) s / 100 = 5 ∨ memRead (s.pc : Int) s / 100 = 6 ∧ s.acc = 0
      then memRead (s.pc : Int) s % 100 else if s.pc = 99 then 99 else s.pc + 1

/-! ### 44_io.md -/

/-- 44_io.md R72, encoding, the source's sentence and cases (a) and (b): the front element in [0, 999], or 0 from an empty
queue, which stays empty. -/
def Obligations.InpTakesFrontOrZero : Prop :=
  ∀ n : Nat, n ≤ 99 → decode (700 + n) = .ok (.inp n) ∧ encodeMnemonic "INP".toList 0 = .ok 700 ∧
    (∀ s : State, s.inq = [] → exec (.inp n) s = .next { s with acc := 0 }) ∧
    (∀ (s : State) (v : Int) (rest : List Int), s.inq = v :: rest → 0 ≤ v → v ≤ 999 →
      exec (.inp n) s = .next { s with acc := v.toNat, inq := rest })

/-- 44_io.md R72 (c): the spec's decision D4 (log entry 8), an element outside [0, 999] is consumed and not stored. -/
def Obligations.InpConsumesOutOfRangeElement : Prop :=
  ∀ (n : Nat) (s : State) (v : Int) (rest : List Int), s.inq = v :: rest → v < 0 ∨ 999 < v →
    exec (.inp n) s = .next { s with inq := rest }

/-- 44_io.md R73: one element, the accumulator, at the back. -/
def Obligations.OutAppendsAccumulator : Prop :=
  ∀ n : Nat, n ≤ 99 → decode (800 + n) = .ok (.out n) ∧ encodeMnemonic "OUT".toList 0 = .ok 800 ∧
    ∀ s : State, exec (.out n) s = .next { s with outq := s.outq ++ [s.acc] }

/-! ### 45_assembler.md R87 with 30_encoding.md R41: DAT -/

/-- A cell made by DAT is executed as whatever its value decodes to; a value above 999 never reaches the cell, which keeps the
reset value and so halts (log entries 1 and 7). -/
def Obligations.DatCellExecutesAsItsWord : Prop :=
  ∀ (v : Nat) (s : State),
    (v ≤ 999 → ∃ i t, decode v = .ok i ∧ i.isPseudo = false ∧ exec (.dat v) s = exec i s ∧ exec (.dat v) s = .next t) ∧
    (999 < v → exec (.dat v) s = .next { s with running := false })

/-! ### Frames -/

/-- ADD, SUB, LDA write the accumulator alone (41_arithmetic.md R61, R62, 42_load_store.md R65). -/
def Obligations.AccumulatorInstructionsFrame : Prop :=
  ∀ (n : Nat) (i : Instr) (s t : State), i = .add n ∨ i = .sub n ∨ i = .lda n → exec i s = .next t →
    t.pc = s.pc ∧ t.inq = s.inq ∧ t.outq = s.outq ∧ t.running = s.running ∧ ∀ a : Int, memRead a t = memRead a s

/-- STA changes only the cell at its effective address (42_load_store.md R64, R66, 20_memory.md R24); DAT, as the word of its
cell, changes a cell only as a store word, its own, and each other field only as a word that writes it (log entry 7). -/
def Obligations.StoreFrame : Prop :=
  (∀ (n : Nat) (s t : State), exec (.sta n) s = .next t →
    t.acc = s.acc ∧ t.pc = s.pc ∧ t.inq = s.inq ∧ t.outq = s.outq ∧ t.running = s.running ∧
    ∀ b : Int, b ≠ effectiveAddress n → memRead b t = memRead b s) ∧
  (∀ (v : Nat) (s t : State), exec (.dat v) s = .next t →
    (v / 100 ≠ 3 → ∀ b : Int, memRead b t = memRead b s) ∧
    (v / 100 = 3 → ∀ b : Int, b ≠ effectiveAddress (v % 100) → memRead b t = memRead b s) ∧
    (v / 100 ∉ [1, 2, 4, 7] → t.acc = s.acc) ∧ (v / 100 ∉ [5, 6] → t.pc = s.pc) ∧
    (v / 100 ≠ 7 → t.inq = s.inq) ∧ (v / 100 ≠ 8 → t.outq = s.outq) ∧
    (100 ≤ v → v ≤ 999 → t.running = s.running))

/-- HLT, BRA, BRZ and opcode 9 leave memory, accumulator and queues alone; only HLT writes the run flag, only a branch the
program counter (43_control.md R67 to R70). -/
def Obligations.ControlInstructionsFrame : Prop :=
  ∀ (n : Nat) (i : Instr) (s t : State), i = .hlt n ∨ i = .bra n ∨ i = .brz n ∨ i = .reserved9 n →
    exec i s = .next t →
    t.acc = s.acc ∧ t.inq = s.inq ∧ t.outq = s.outq ∧ (i ≠ .hlt n → t.running = s.running) ∧
    (i = .hlt n ∨ i = .reserved9 n → t.pc = s.pc) ∧ ∀ a : Int, memRead a t = memRead a s

/-- INP writes the accumulator and the input queue alone, OUT the output queue alone (44_io.md R72, R73). -/
def Obligations.InputOutputFrame : Prop :=
  ∀ (n : Nat) (s t : State),
    (exec (.inp n) s = .next t → t.pc = s.pc ∧ t.outq = s.outq ∧ t.running = s.running ∧
      ∀ a : Int, memRead a t = memRead a s) ∧
    (exec (.out n) s = .next t → t.acc = s.acc ∧ t.pc = s.pc ∧ t.inq = s.inq ∧ t.running = s.running ∧
      ∀ a : Int, memRead a t = memRead a s)

/-- 95_test_vectors.md Part 4 (6), 20_memory.md R25: a step changes at most one cell, and only by a STA. -/
def Obligations.StepChangesAtMostTheStoredCell : Prop :=
  ∀ (s t : State) (a : Int), s.Inv → step s = .next t → memRead a t ≠ memRead a s →
    memRead (s.pc : Int) s / 100 = 3 ∧ a = ((memRead (s.pc : Int) s % 100 : Nat) : Int)

/-- 95_test_vectors.md Part 4 (4) and (5), 10_state.md R10, R11: the output queue grows at the back by OUT alone, the input
queue loses its front by INP alone. The input clause holds for every front element; that INP consumes one outside [0, 999]
too (44_io.md R72, corner case (c)) is the spec's decision D4 (log entry 8, DESIGN CHOICE). -/
def Obligations.QueuesChangeOnlyByInpAndOut : Prop :=
  ∀ s t : State, s.Inv → step s = .next t →
    t.outq = (if memRead (s.pc : Int) s / 100 = 8 then s.outq ++ [s.acc] else s.outq) ∧
    t.inq = if memRead (s.pc : Int) s / 100 = 7 then s.inq.tail else s.inq

/-- 20_memory.md R33: a store is what any later fetch of that cell reads, the very next included, and does not affect the
step that makes it. -/
def Obligations.StoreIsSeenByTheNextFetch : Prop :=
  ∀ (n : Nat) (s : State), n ≤ 99 → s.Inv → s.running = true → memRead (s.pc : Int) s = 300 + n →
    ∃ t i, step s = .next t ∧ memRead (n : Int) t = s.acc ∧ t.acc = s.acc ∧
      t.pc = (if s.pc = 99 then 99 else s.pc + 1) ∧ decode s.acc = .ok i ∧
      (t.pc = n → step t = exec i (pcWrite ((t.pc : Int) + 1) t))

/-! ### Invariants -/

/-- The range invariant holds at reset (10_state.md R15, R19). -/
def Obligations.ResetMeetsRangeInvariant : Prop := State.reset.Inv

/-- `load` establishes the range invariant, whatever the program, the input and the state before (10_state.md R15,
20_memory.md R35). -/
def Obligations.LoadMeetsRangeInvariant : Prop :=
  ∀ (program input : List Int) (s : State), (load program input s).Inv

/-- Every step keeps the range invariant (10_state.md R15). -/
def Obligations.StepKeepsRangeInvariant : Prop :=
  ∀ s t : State, s.Inv → step s = .next t → t.Inv

/-- 10_state.md R15: in every state the Loader and the engine reach from reset, every field is in its range. -/
def Obligations.ReachableStatesAreInRange : Prop :=
  ∀ s : State, Reachable s → (∀ a : Int, memRead a s ≤ 999) ∧ s.acc ≤ 999 ∧ s.pc ≤ 99 ∧ ∀ v ∈ s.outq, v ≤ 999

/-! ### 70_reset_and_hazards.md: the Loader -/

/-- 70_reset_and_hazards.md R117, R119, 20_memory.md R35, 95_test_vectors.md Part 4 (9): what `load` leaves. The zeros of
the other cells and of the accumulator are the spec's decision D1 (log entry 1). -/
def Obligations.LoadPlacesProgramAndInput : Prop :=
  ∀ (program input : List Int) (s : State),
    (load program input s).inq = input ∧ (load program input s).acc = 0 ∧ (load program input s).pc = 0 ∧
    (load program input s).outq = [] ∧ (load program input s).running = true ∧
    (∀ (i : Nat) (w : Int), i ≤ 99 → program[i]? = some w →
      (memRead (i : Int) (load program input s) : Int) = if 0 ≤ w ∧ w ≤ 999 then w else 0) ∧
    (∀ i : Nat, program.length ≤ i → memRead (i : Int) (load program input s) = 0)

/-- 70_reset_and_hazards.md R118: loaded only when nothing was rejected, otherwise reported and the machine untouched. -/
def Obligations.AssembleThenLoadIsAllOrNothing : Prop :=
  ∀ (text : Text) (input : List Int) (s : State) (accepted : List Nat) (rejected : List Rejected),
    assemble text = .lists accepted rejected →
    (rejected = [] → assembleThenLoad text input s = .loaded (load (accepted.map Int.ofNat) input s)) ∧
    (rejected ≠ [] → assembleThenLoad text input s = .reported rejected s)

/-! ### 45_assembler.md and 46_label_table_resolver.md -/

/-- 45_assembler.md R76: the first and the last raw line go, whatever they hold, and the others stay in order. That a text of
fewer than two lines leaves none is the spec's decision D18; where lines end is log entry 19. -/
def Obligations.FramingLinesAreDiscarded : Prop :=
  (∀ (first last : Text) (body : List Text), '\n' ∉ first → '\n' ∉ last → (∀ l ∈ body, '\n' ∉ l) →
    bodyLines (splitLines (List.intercalate ['\n'] (first :: body ++ [last]))) = body) ∧
  (∀ text : Text, '\n' ∉ text → cleanedLines text = [])

/-- 45_assembler.md R77, R78. A comment runs from the first `//`, lone slashes before it stay; trimming takes the white space
at the ends; the cleaned lines are the body lines so treated, the empty ones dropped, in order; and the tokens are the maximal
runs without white space. What white space is, and that a comment may be glued to a token, is the spec's decision D19 (log
entry 20); where raw lines end is log entry 19. -/
def Obligations.CleanedLinesHaveTokens : Prop :=
  (∀ l r : Text, ¬ ['/', '/'] <:+: l ++ ['/'] → removeComment (l ++ '/' :: '/' :: r) = l) ∧
  (∀ l : Text, ¬ ['/', '/'] <:+: l → removeComment l = l) ∧
  (∀ c : Char, isSpace c = true ↔ c = ' ' ∨ c = '\t' ∨ c = '\r') ∧
  (∀ u m v : Text, (∀ c ∈ u ++ v, isSpace c = true) → m.head?.all (fun c => !isSpace c) = true →
    m.getLast?.all (fun c => !isSpace c) = true → trim (u ++ m ++ v) = m) ∧
  (∀ (first last : Text) (body : List Text), '\n' ∉ first → '\n' ∉ last → (∀ l ∈ body, '\n' ∉ l) →
    cleanedLines (List.intercalate ['\n'] (first :: body ++ [last])) =
      (body.map fun l => trim (removeComment l)).filter fun l => !l.isEmpty) ∧
  (tokens [] = [] ∧ (∀ (c : Char) (r : Text), isSpace c = true → tokens (c :: r) = tokens r) ∧
    ∀ m : Text, m ≠ [] → (∀ c ∈ m, isSpace c = false) →
      tokens m = [m] ∧ ∀ (c : Char) (r : Text), isSpace c = true → tokens (m ++ c :: r) = m :: tokens r) ∧
  (∀ (text l : Text), l ∈ cleanedLines text → tokens l ≠ [] ∧ l.head?.all (fun c => !isSpace c) = true ∧
    l.getLast?.all (fun c => !isSpace c) = true)

/-- 45_assembler.md R79 to R82: the shapes of lines of one, two, three and more tokens, with the reserved words of
30_encoding.md R46 and the well-formed labels of 46_label_table_resolver.md R92. Telling the shapes apart, the exact spelling
and the letters of a label are the spec's decisions D15, D10, D11 (log entries 18, 14, 15). -/
def Obligations.LineShapesByTokenCount : Prop :=
  (∀ t : Text, (isReserved t = true ↔ t ∈ reservedWords) ∧
    (t ∈ reservedWords ↔ t ∈ ["HLT".toList, "ADD".toList, "SUB".toList, "STA".toList, "LDA".toList, "BRA".toList,
      "BRZ".toList, "INP".toList, "OUT".toList, "DAT".toList]) ∧
    (isLabel t = true ↔ t ≠ [] ∧ t ∉ reservedWords ∧
      ∀ c ∈ t, 65 ≤ c.toNat ∧ c.toNat ≤ 90 ∨ 97 ≤ c.toNat ∧ c.toNat ≤ 122)) ∧
  ∀ t1 t2 t3 t4 : Text, ∀ more : List Text,
    (isReserved t1 = true → classify [t1] = .record none t1 none ∧ classify [t1, t2] = .record none t1 (some t2) ∧
      classify [t1, t2, t3] = .malformed) ∧
    (isLabel t1 = true → classify [t1] = .bareLabel t1 ∧
      (isReserved t2 = true → classify [t1, t2] = .record (some t1) t2 none ∧
        classify [t1, t2, t3] = .record (some t1) t2 (some t3)) ∧
      (isReserved t2 = false → classify [t1, t2] = .record none t1 (some t2) ∧ classify [t1, t2, t3] = .malformed)) ∧
    (isReserved t1 = false → isLabel t1 = false → classify [t1] = .record none t1 none ∧
      classify [t1, t2] = .record none t1 (some t2) ∧ classify [t1, t2, t3] = .malformed) ∧
    classify (t1 :: t2 :: t3 :: t4 :: more) = .malformed

/-- 46_label_table_resolver.md R91, R93, 45_assembler.md R83: every cleaned line is classified, in order; and in a program that
is not refused, the line at index `k` has address `k`, and a label is bound exactly to the address of the line that declares
it. That every `label mnemonic` line declares, and that a malformed line takes an address, are the spec's decisions D20 and
D25 (log entries 17 and 25). -/
def Obligations.LabelIsBoundToItsDeclaringLine : Prop :=
  ∀ text : Text,
    ((programLines text).map fun l => (l.text, l.shape)) = ((cleanedLines text).map fun l => (l, classify (tokens l))) ∧
    (refusal (programLines text) = none →
      (∀ (k : Nat) (l : Line), (programLines text)[k]? = some l → l.addr = k) ∧
      ∀ (name : Text) (a : Nat), (labelTable (programLines text)).lookup name = some a ↔
        ∃ l m op, (programLines text)[a]? = some l ∧ l.shape = .record (some name) m op)

/-- 46_label_table_resolver.md R95, R100, 45_assembler.md R84: what a numeral is and its value, and what an operand token
resolves to. That an undeclared label is a failure of its line, and the grammar of numerals, are the spec's decisions D13 and
D24 (log entry 18). -/
def Obligations.OperandResolution : Prop :=
  (∀ t : Text, isNumeral t = true ↔ t ≠ [] ∧ ∀ c ∈ t, 48 ≤ c.toNat ∧ c.toNat ≤ 57) ∧
  (∀ (t : Text) (c : Char), numeralValue [] = 0 ∧
    (48 ≤ c.toNat → c.toNat ≤ 57 → numeralValue (t ++ [c]) = 10 * numeralValue t + (c.toNat - 48))) ∧
  ∀ (table : LabelTable) (t : Text),
    resolveOperand table none = some 0 ∧
    (isNumeral t = true → resolveOperand table (some t) = some (numeralValue t)) ∧
    (isLabel t = true → resolveOperand table (some t) = table.lookup t) ∧
    (isNumeral t = false → table.lookup t = none → resolveOperand table (some t) = none)

/-- 46_label_table_resolver.md R98, R99: a program is refused exactly when it has a bare-label line or two lines that declare
one label, and a refused text leaves nothing loaded: the spec's decisions D12 and D14 (log entry 16). -/
def Obligations.RefusedExactlyOnBareOrDuplicateLabel : Prop :=
  (∀ lines : List Line, ((∃ why, assembleLines lines = .refused why) ↔ refusal lines ≠ none) ∧
    (refusal lines ≠ none ↔ (∃ l ∈ lines, ∃ name, l.shape = .bareLabel name) ∨
      ∃ (name : Text) (j k : Nat) (l l' : Line), j < k ∧ lines[j]? = some l ∧ lines[k]? = some l' ∧
        (∃ m op, l.shape = .record (some name) m op) ∧ ∃ m op, l'.shape = .record (some name) m op)) ∧
  ∀ text : Text, assemble text = assembleLines (programLines text) ∧
    ∀ (why : Refused) (input : List Int) (s : State), assemble text = .refused why →
      assembleThenLoad text input s = .refused why

/-- 45_assembler.md R86: a record's word is `encode_mnemonic` of its mnemonic and resolved operand, an operand that does not
resolve and a malformed line have none; and each line goes to exactly one of the two lists, each in source order. What a
rejected entry holds is the spec's decision D17 (log entry 21). -/
def Obligations.LinesArePartitioned : Prop :=
  (∀ (table : LabelTable) (l : Line) (label : Option Text) (m : Text) (op : Option Text),
    l.shape = .record label m op →
    (∀ n : Nat, resolveOperand table op = some n → encodeLine table l = (encodeMnemonic m n).toOption) ∧
    (resolveOperand table op = none → encodeLine table l = none)) ∧
  (∀ (table : LabelTable) (l : Line), (l.shape = .malformed ∨ ∃ name, l.shape = .bareLabel name) →
    encodeLine table l = none) ∧
  ∀ (text : Text) (accepted : List Nat) (rejected : List Rejected), assemble text = .lists accepted rejected →
    accepted.length + rejected.length = (programLines text).length ∧
    accepted = (programLines text).filterMap (encodeLine (labelTable (programLines text))) ∧
    (rejected.map Rejected.addr).Pairwise (· < ·) ∧
    ∀ r : Rejected, r ∈ rejected ↔ ∃ l ∈ programLines text, encodeLine (labelTable (programLines text)) l = none ∧
      r = { addr := l.addr, text := l.text }

/-- 45_assembler.md R85: the reconstituted text encodes as the record did, and an absent operand and an operand 0 are the same
thing. -/
def Obligations.LinearisedTextEncodesAlike : Prop :=
  ∀ m : Text, m ∈ reservedWords →
    (∀ n : Nat, encodeText (instructionText m n) = encodeMnemonic m n) ∧ instructionText m 0 = m ∧
    (∀ n : Nat, n ≠ 0 → instructionText m n = m ++ ' ' :: decimal n) ∧
    ∀ (table : LabelTable) (z : Text), resolveOperand table (some z) = some 0 →
      resolveOperand table none = resolveOperand table (some z)

/-- 45_assembler.md R88: the accepted list of an assembly with nothing rejected has one word per record, parallel to the
addresses, and word `i` is what the Loader writes to cell `i`. -/
def Obligations.AssembledProgramIsLoadedInAddressOrder : Prop :=
  ∀ (text : Text) (words : List Nat) (input : List Int) (s : State), assemble text = .lists words [] →
    words.length = (programLines text).length ∧
    ∀ (k w : Nat), words[k]? = some w →
      (∃ l, (programLines text)[k]? = some l ∧ l.addr = k ∧ encodeLine (labelTable (programLines text)) l = some w) ∧
      (k ≤ 99 → w ≤ 999 → assembleThenLoad text input s = .loaded (load (words.map Int.ofNat) input s) ∧
        memRead (k : Int) (load (words.map Int.ofNat) input s) = w)
end

