-- ==== Sys2Proof/Laws/State.lean ====
section
/-! SUPPORT. The small laws of State: what each guarded operation leaves alone, field by field, and the parameters as
numerals. -/

namespace Sys2Proof

@[simp] theorem Config.memSize_eq : Config.memSize = 100 := rfl
@[simp] theorem Config.wordMax_eq : Config.wordMax = 999 := rfl
@[simp] theorem Config.accMax_eq : Config.accMax = 999 := rfl
@[simp] theorem Config.pcLimit_eq : Config.pcLimit = 100 := rfl
@[simp] theorem Config.opRadix_eq : Config.opRadix = 100 := rfl
@[simp] theorem Config.emptyInputValue_eq : Config.emptyInputValue = 0 := rfl
@[simp] theorem Config.oorReadValue_eq : Config.oorReadValue = 0 := rfl

namespace Machine

@[simp] theorem Memory.unlisted_eq : Memory.unlisted = 0 := rfl

@[simp] theorem reset_mem : State.reset.mem = [] := rfl
@[simp] theorem reset_acc : State.reset.acc = 0 := rfl
@[simp] theorem reset_pc : State.reset.pc = 0 := rfl
@[simp] theorem reset_inq : State.reset.inq = [] := rfl
@[simp] theorem reset_outq : State.reset.outq = [] := rfl
@[simp] theorem reset_running : State.reset.running = true := rfl

variable (s : State) (a v : Int)

@[simp] theorem memWrite_acc : (memWrite a v s).acc = s.acc := by unfold memWrite; split <;> rfl
@[simp] theorem memWrite_pc : (memWrite a v s).pc = s.pc := by unfold memWrite; split <;> rfl
@[simp] theorem memWrite_inq : (memWrite a v s).inq = s.inq := by unfold memWrite; split <;> rfl
@[simp] theorem memWrite_outq : (memWrite a v s).outq = s.outq := by unfold memWrite; split <;> rfl
@[simp] theorem memWrite_running : (memWrite a v s).running = s.running := by unfold memWrite; split <;> rfl

@[simp] theorem accWrite_mem : (accWrite v s).mem = s.mem := by unfold accWrite; split <;> rfl
@[simp] theorem accWrite_pc : (accWrite v s).pc = s.pc := by unfold accWrite; split <;> rfl
@[simp] theorem accWrite_inq : (accWrite v s).inq = s.inq := by unfold accWrite; split <;> rfl
@[simp] theorem accWrite_outq : (accWrite v s).outq = s.outq := by unfold accWrite; split <;> rfl
@[simp] theorem accWrite_running : (accWrite v s).running = s.running := by unfold accWrite; split <;> rfl

@[simp] theorem pcWrite_mem : (pcWrite v s).mem = s.mem := by unfold pcWrite; split <;> rfl
@[simp] theorem pcWrite_acc : (pcWrite v s).acc = s.acc := by unfold pcWrite; split <;> rfl
@[simp] theorem pcWrite_inq : (pcWrite v s).inq = s.inq := by unfold pcWrite; split <;> rfl
@[simp] theorem pcWrite_outq : (pcWrite v s).outq = s.outq := by unfold pcWrite; split <;> rfl
@[simp] theorem pcWrite_running : (pcWrite v s).running = s.running := by unfold pcWrite; split <;> rfl

@[simp] theorem takeInput_mem : (takeInput s).2.mem = s.mem := by unfold takeInput; split <;> rfl
@[simp] theorem takeInput_acc : (takeInput s).2.acc = s.acc := by unfold takeInput; split <;> rfl
@[simp] theorem takeInput_pc : (takeInput s).2.pc = s.pc := by unfold takeInput; split <;> rfl
@[simp] theorem takeInput_outq : (takeInput s).2.outq = s.outq := by unfold takeInput; split <;> rfl
@[simp] theorem takeInput_running : (takeInput s).2.running = s.running := by unfold takeInput; split <;> rfl
@[simp] theorem takeInput_inq : (takeInput s).2.inq = s.inq.tail := by
  unfold takeInput; split <;> simp_all

@[simp] theorem putOutput_mem (n : Nat) : (putOutput n s).mem = s.mem := rfl
@[simp] theorem putOutput_acc (n : Nat) : (putOutput n s).acc = s.acc := rfl
@[simp] theorem putOutput_pc (n : Nat) : (putOutput n s).pc = s.pc := rfl
@[simp] theorem putOutput_inq (n : Nat) : (putOutput n s).inq = s.inq := rfl
@[simp] theorem putOutput_outq (n : Nat) : (putOutput n s).outq = s.outq ++ [n] := rfl
@[simp] theorem putOutput_running (n : Nat) : (putOutput n s).running = s.running := rfl

@[simp] theorem clearRunning_mem : (clearRunning s).mem = s.mem := rfl
@[simp] theorem clearRunning_acc : (clearRunning s).acc = s.acc := rfl
@[simp] theorem clearRunning_pc : (clearRunning s).pc = s.pc := rfl
@[simp] theorem clearRunning_inq : (clearRunning s).inq = s.inq := rfl
@[simp] theorem clearRunning_outq : (clearRunning s).outq = s.outq := rfl
@[simp] theorem clearRunning_running : (clearRunning s).running = false := rfl

end Machine

end Sys2Proof
end

