-- ==== Sys2Proof/Laws/Codec.lean ====
section
/-! SUPPORT. Small laws of the codec. -/

namespace Sys2Proof

@[simp] theorem splitWord_eq (w : Nat) : splitWord w = (w / 100, w % 100) := rfl
@[simp] theorem packWord_eq (k n : Nat) : packWord k n = k * 100 + n := rfl

/-- An operand fits its field when it is below 100 (30_encoding.md R37). -/
@[simp] theorem operandFits_iff (n : Nat) : operandFits n = true ↔ n < 100 := decide_eq_true_iff

/-- The decoder on its domain. -/
theorem decode_eq {w : Nat} (h : w ≤ 999) : decode w = .ok (instrOf (w / 100) (w % 100)) := by
  simp [decode, h]

@[simp] theorem toText_eq (w : Nat) : toText w = textOf (w / 100) (w % 100) := rfl

/-- The text of an opcode that has a mnemonic (30_encoding.md R47). -/
theorem textOf_some {k : Nat} {m : Text} (n : Nat) (h : mnemonicOf k = some m) :
    textOf k n = .ok (if k = 0 ∨ n = 0 then m else m ++ ' ' :: decimal n) := by
  simp only [textOf, h]
  split <;> rfl

/-- A decimal numeral reads back as its value. -/
theorem ofDigitChars_decimal (n : Nat) : Nat.ofDigitChars 10 (decimal n) 0 = n :=
  Nat.ofDigitChars_toDigits (by decide) (by decide)

end Sys2Proof
end

