-- ==== Sys2Proof/Laws/Memory.lean ====
section
/-! SUPPORT. The canonical form of memory and its read-after-write laws (20_memory.md R23, R24). -/

namespace Sys2Proof.Machine

theorem Memory.wfFrom_cons {lo a v : Nat} {m : Memory} :
    Memory.wfFrom lo ((a, v) :: m) = true ↔
      lo ≤ a ∧ a < 100 ∧ v ≠ 0 ∧ v ≤ 999 ∧ Memory.wfFrom (a + 1) m = true := by
  simp only [Memory.wfFrom, Bool.and_eq_true, decide_eq_true_eq, and_assoc]
  simp only [Config.memSize_eq, Config.wordMax_eq, Memory.unlisted_eq]

theorem Memory.wfFrom_weaken {lo hi : Nat} {m : Memory} (h : Memory.wfFrom hi m = true) (hl : lo ≤ hi) :
    Memory.wfFrom lo m = true := by
  cases m with
  | nil => rfl
  | cons c m =>
    obtain ⟨a, v⟩ := c
    rw [Memory.wfFrom_cons] at h ⊢
    exact ⟨hl.trans h.1, h.2⟩

/-- Below the first listed address every cell reads as unlisted. -/
theorem Memory.cell_below {lo a : Nat} {m : Memory} (h : Memory.wfFrom lo m = true) (ha : a < lo) :
    Memory.cell m a = 0 := by
  induction m generalizing lo with
  | nil => rfl
  | cons c m ih =>
    obtain ⟨b, v⟩ := c
    rw [Memory.wfFrom_cons] at h
    have hab : a ≠ b := by omega
    simpa [Memory.cell, hab] using ih h.2.2.2.2 (by omega)

/-- Every cell of a canonical memory is in [0, 999] (10_state.md R7). -/
theorem Memory.cell_le {lo : Nat} {m : Memory} (h : Memory.wfFrom lo m = true) (a : Nat) : Memory.cell m a ≤ 999 := by
  induction m generalizing lo with
  | nil => simp [Memory.cell]
  | cons c m ih =>
    obtain ⟨b, v⟩ := c
    rw [Memory.wfFrom_cons] at h
    unfold Memory.cell
    split
    · exact h.2.2.2.1
    · exact ih h.2.2.2.2

/-- A write of an in-range value at an in-range address keeps the canonical form. -/
theorem Memory.wfFrom_set {lo a v : Nat} {m : Memory} (h : Memory.wfFrom lo m = true) (hlo : lo ≤ a) (ha : a < 100)
    (hv : v ≤ 999) : Memory.wfFrom lo (Memory.set m a v) = true := by
  induction m generalizing lo with
  | nil =>
    unfold Memory.set
    split
    · rfl
    · exact Memory.wfFrom_cons.2 ⟨hlo, ha, by simpa using ‹_›, hv, rfl⟩
  | cons c m ih =>
    obtain ⟨b, w⟩ := c
    have hc := Memory.wfFrom_cons.1 h
    obtain ⟨h1, h2, h3, h4, h5⟩ := hc
    unfold Memory.set
    split
    · split
      · exact h
      · exact Memory.wfFrom_cons.2 ⟨hlo, ha, by simpa using ‹_›, hv, Memory.wfFrom_cons.2 ⟨by omega, h2, h3, h4, h5⟩⟩
    · split
      · split
        · exact Memory.wfFrom_weaken h5 (by omega)
        · exact Memory.wfFrom_cons.2 ⟨hlo, ha, by simpa using ‹_›, hv, by subst_vars; exact h5⟩
      · exact Memory.wfFrom_cons.2 ⟨h1, h2, h3, h4, ih h5 (by omega)⟩

/-- Another cell keeps its value. -/
theorem Memory.cell_set_ne (m : Memory) {a b : Nat} (v : Nat) (hab : b ≠ a) :
    Memory.cell (Memory.set m a v) b = Memory.cell m b := by
  induction m with
  | nil =>
    unfold Memory.set
    split <;> simp [Memory.cell, hab]
  | cons c m ih =>
    obtain ⟨d, w⟩ := c
    unfold Memory.set
    split
    · split <;> simp [Memory.cell, hab]
    · split
      · subst_vars
        split <;> simp [Memory.cell, hab]
      · simp [Memory.cell, ih]

/-- The written cell reads as the value written. -/
theorem Memory.cell_set_eq {lo a : Nat} {m : Memory} (h : Memory.wfFrom lo m = true) (v : Nat) :
    Memory.cell (Memory.set m a v) a = v := by
  induction m generalizing lo with
  | nil =>
    unfold Memory.set
    split <;> simp_all [Memory.cell]
  | cons c m ih =>
    obtain ⟨d, w⟩ := c
    have hc := Memory.wfFrom_cons.1 h
    unfold Memory.set
    split
    · split
      · rename_i h1 h2
        have : a ≠ d := by omega
        simp only [Memory.unlisted_eq] at h2
        simpa [Memory.cell, this, h2] using Memory.cell_below hc.2.2.2.2 (by omega : a < d + 1)
      · simp [Memory.cell]
    · split
      · rename_i h1 h2
        split
        · rename_i h3
          simp only [Memory.unlisted_eq] at h3
          simpa [h3] using Memory.cell_below hc.2.2.2.2 (by omega : a < d + 1)
        · simp [Memory.cell]
      · rename_i h1 h2
        simpa [Memory.cell, h2] using ih hc.2.2.2.2

end Sys2Proof.Machine
end

