-- ==== Sys2Proof/Laws/Ops.lean ====
section
/-! SUPPORT. For each shared operation, once, everything it can do; the provers cite these instead of unfolding. -/

namespace Sys2Proof.Machine

/-- A read at a cell's address is the cell. -/
theorem memRead_nat (a : Nat) (s : State) (ha : a < 100) : memRead (a : Int) s = Memory.cell s.mem a := by
  simp [memRead, show (a : Int) < 100 by omega]

/-- A read outside the address space is 0. -/
theorem memRead_out (a : Int) (s : State) (ha : a < 0 ∨ 100 ≤ a) : memRead a s = 0 := by
  have : ¬ (0 ≤ a ∧ a < 100) := by omega
  simp [memRead, this]

/-- Two states with one memory read alike. -/
theorem memRead_congr {s t : State} (h : s.mem = t.mem) (a : Int) : memRead a s = memRead a t := by
  simp only [memRead, h]

theorem memRead_le {s : State} (h : Memory.wf s.mem = true) (a : Int) : memRead a s ≤ 999 := by
  unfold memRead
  split
  · exact Memory.cell_le h _
  · simp

/-- A guarded memory write either sets one cell or does nothing. -/
theorem memWrite_cases (a v : Int) (s : State) :
    (0 ≤ a ∧ a < 100 ∧ 0 ≤ v ∧ v ≤ 999 ∧ memWrite a v s = { s with mem := Memory.set s.mem a.toNat v.toNat }) ∨
      (¬ (0 ≤ a ∧ a < 100 ∧ 0 ≤ v ∧ v ≤ 999) ∧ memWrite a v s = s) := by
  by_cases h : 0 ≤ a ∧ a < 100 ∧ 0 ≤ v ∧ v ≤ 999
  · exact .inl ⟨h.1, h.2.1, h.2.2.1, h.2.2.2, by simp [memWrite, h]⟩
  · exact .inr ⟨h, by simp only [memWrite, Config.memSize_eq, Config.wordMax_eq]; exact if_neg (by simpa using h)⟩

/-- A guarded accumulator write either stores the value or does nothing. -/
theorem accWrite_cases (v : Int) (s : State) :
    (0 ≤ v ∧ v ≤ 999 ∧ accWrite v s = { s with acc := v.toNat }) ∨ (¬ (0 ≤ v ∧ v ≤ 999) ∧ accWrite v s = s) := by
  by_cases h : 0 ≤ v ∧ v ≤ 999
  · exact .inl ⟨h.1, h.2, by simp [accWrite, h]⟩
  · exact .inr ⟨h, by simp only [accWrite, Config.accMax_eq]; exact if_neg (by simpa using h)⟩

/-- A guarded program-counter write either stores the value or does nothing. -/
theorem pcWrite_cases (v : Int) (s : State) :
    (0 ≤ v ∧ v < 100 ∧ pcWrite v s = { s with pc := v.toNat }) ∨ (¬ (0 ≤ v ∧ v < 100) ∧ pcWrite v s = s) := by
  by_cases h : 0 ≤ v ∧ v < 100
  · exact .inl ⟨h.1, h.2, by simp [pcWrite, h]⟩
  · exact .inr ⟨h, by simp only [pcWrite, Config.pcLimit_eq]; exact if_neg (by simpa using h)⟩

/-- Every guarded memory write keeps the canonical form. -/
theorem memWrite_wf (a v : Int) {s : State} (h : Memory.wf s.mem = true) : Memory.wf (memWrite a v s).mem = true := by
  rcases memWrite_cases a v s with ⟨h1, h2, h3, h4, he⟩ | ⟨-, he⟩
  · rw [he]
    exact Memory.wfFrom_set h (Nat.zero_le _) (by omega) (by omega)
  · rwa [he]

/-- Reset memory is canonical. -/
theorem reset_wf : Memory.wf State.reset.mem = true := rfl

/-- Placing a word keeps the canonical form. -/
theorem placeWord_wf (w : Nat) {s : State} (h : Memory.wf s.mem = true) : Memory.wf (placeWord w s).mem = true :=
  memWrite_wf _ _ h

/-- Taking input gives the front of the queue, or 0. -/
theorem takeInput_cases (s : State) :
    (s.inq = [] ∧ takeInput s = (0, s)) ∨
      ∃ v rest, s.inq = v :: rest ∧ takeInput s = (v, { s with inq := rest }) := by
  unfold takeInput
  split
  · exact .inl ⟨‹_›, by simp⟩
  · exact .inr ⟨_, _, ‹_›, rfl⟩

/-- The increment of the program counter in every state: plus one below 99, nothing from 99 on. -/
theorem advancePc_eq (s : State) : advancePc s = if s.pc < 99 then { s with pc := s.pc + 1 } else s := by
  unfold advancePc
  rcases pcWrite_cases ((s.pc : Int) + 1) s with ⟨-, h, he⟩ | ⟨h, he⟩
  · rw [he, if_pos (by omega)]
    rfl
  · rw [he, if_neg (by omega)]

@[simp] theorem advancePc_mem (s : State) : (advancePc s).mem = s.mem := pcWrite_mem _ _
@[simp] theorem advancePc_acc (s : State) : (advancePc s).acc = s.acc := pcWrite_acc _ _
@[simp] theorem advancePc_inq (s : State) : (advancePc s).inq = s.inq := pcWrite_inq _ _
@[simp] theorem advancePc_outq (s : State) : (advancePc s).outq = s.outq := pcWrite_outq _ _
@[simp] theorem advancePc_running (s : State) : (advancePc s).running = s.running := pcWrite_running _ _

end Sys2Proof.Machine
end

