-- ==== Sys2Proof/Laws/PerInstr.lean ====
section
/-! SUPPORT. Statements about every instruction as syntax, one lemma per constructor. -/

namespace Sys2Proof.Laws

/-- The word of a well-formed instruction is a machine word: it fits a cell (30_encoding.md R37). -/
def EncodeFits.Statement (i : Instr) : Prop := i.wellFormed = true → encode i ≤ Config.wordMax

namespace EncodeFits

/-- The shared step: an opcode of one digit and a fitting operand. -/
theorem packWord_fits {k n : Nat} (hk : k ≤ 9) (hn : operandFits n = true) : packWord k n ≤ Config.wordMax := by
  rw [operandFits_iff] at hn
  simp only [packWord_eq, Config.wordMax_eq]
  omega

theorem hlt (n : Nat) : Statement (.hlt n) := packWord_fits (by decide)
theorem add (n : Nat) : Statement (.add n) := packWord_fits (by decide)
theorem sub (n : Nat) : Statement (.sub n) := packWord_fits (by decide)
theorem sta (n : Nat) : Statement (.sta n) := packWord_fits (by decide)
theorem lda (n : Nat) : Statement (.lda n) := packWord_fits (by decide)
theorem bra (n : Nat) : Statement (.bra n) := packWord_fits (by decide)
theorem brz (n : Nat) : Statement (.brz n) := packWord_fits (by decide)
theorem inp (n : Nat) : Statement (.inp n) := packWord_fits (by decide)
theorem out (n : Nat) : Statement (.out n) := packWord_fits (by decide)
theorem reserved9 (n : Nat) : Statement (.reserved9 n) := packWord_fits (by decide)
theorem dat (v : Nat) : Statement (.dat v) := of_decide_eq_true

end EncodeFits

end Sys2Proof.Laws
end

