-- ==== Sys2Proof/Laws/Step.lean ====
section
/-! SUPPORT. What one instruction, one step and one run can do, each said once. -/

namespace Sys2Proof.Machine

variable (n : Nat) (s : State)

@[simp] theorem exec_hlt : exec (.hlt n) s = .next (clearRunning s) := rfl
@[simp] theorem exec_add : exec (.add n) s = .next (accWrite ((s.acc : Int) + memRead (n : Int) s) s) := rfl
@[simp] theorem exec_sub : exec (.sub n) s = .next (accWrite ((s.acc : Int) - memRead (n : Int) s) s) := rfl
@[simp] theorem exec_sta : exec (.sta n) s = .next (memWrite (n : Int) (s.acc : Int) s) := rfl
@[simp] theorem exec_lda : exec (.lda n) s = .next (accWrite (memRead (n : Int) s : Int) s) := rfl
@[simp] theorem exec_bra : exec (.bra n) s = .next (pcWrite (n : Int) s) := rfl
@[simp] theorem exec_brz : exec (.brz n) s = .next (if s.acc = 0 then pcWrite (n : Int) s else s) := by
  simp only [exec, execBrz, accIsZero, beq_iff_eq]
  rfl
@[simp] theorem exec_inp : exec (.inp n) s = .next (accWrite (takeInput s).1 (takeInput s).2) := rfl
@[simp] theorem exec_out : exec (.out n) s = .next (putOutput s.acc s) := rfl
@[simp] theorem exec_reserved9 : exec (.reserved9 n) s = .next s := rfl

/-- The execute phase on an opcode is the instruction of that row (40_step_cycle.md R55). -/
theorem execute_eq_exec (opcode : Nat) : execute opcode n s = exec (instrOf opcode n) s := by
  match opcode with
  | 0 | 1 | 2 | 3 | 4 | 5 | 6 | 7 | 8 => rfl
  | _ + 9 => rfl

/-- A DAT's cell is executed as the word it holds. -/
theorem exec_dat (v : Nat) : exec (.dat v) s = exec (instrOf (datCell v / 100) (datCell v % 100)) s :=
  execute_eq_exec _ _ _

variable {s} {t : State}

/-- A step of a running machine on a word in [0, 999]. -/
theorem step_eq (hr : s.running = true) (hw : memRead (s.pc : Int) s ≤ 999) :
    step s = exec (instrOf (memRead (s.pc : Int) s / 100) (memRead (s.pc : Int) s % 100)) (advancePc s) := by
  simp only [step, stepEnabled, hr, fetchInstr, fetchWord, decode_eq hw, if_true]

/-- A step that answers a next state ran, on a word in [0, 999], the execute phase of its opcode. -/
theorem step_next (h : step s = .next t) :
    s.running = true ∧ memRead (s.pc : Int) s ≤ 999 ∧
      exec (instrOf (memRead (s.pc : Int) s / 100) (memRead (s.pc : Int) s % 100)) (advancePc s) = .next t := by
  by_cases hr : s.running = true
  · by_cases hw : memRead (s.pc : Int) s ≤ 999
    · exact ⟨hr, hw, step_eq hr hw ▸ h⟩
    · simp [step, stepEnabled, hr, fetchInstr, fetchWord, decode, hw, undecodable] at h
  · simp [step, stepEnabled, hr, haltedOutcome] at h

/-- One turn of a run. -/
theorem runFor_succ (fuel : Nat) (hr : s.running = true) (h : step s = .next t) : runFor (fuel + 1) s = runFor fuel t := by
  simp [runFor, hr, h]

/-- A run of a halted machine changes nothing. -/
theorem runFor_halted (fuel : Nat) (hr : s.running = false) : runFor fuel s = .next s := by
  cases fuel <;> simp [runFor, hr]

end Sys2Proof.Machine
end

