-- ==== Sys2Proof/Laws/Text.lean ====
section
/-! SUPPORT. Lines, tokens and numerals of source text. -/

namespace Sys2Proof.Asm

/-- A text without white space is one token. -/
theorem tokens_word {m : Text} (hm : m ≠ []) (h : ∀ c ∈ m, isSpace c = false) : tokens m = [m] := by
  induction m with
  | nil => exact absurd rfl hm
  | cons c cs ih =>
    have hc := h c (by simp)
    cases cs with
    | nil => simp [tokens, hc, consToken]
    | cons d ds =>
      have hd := h d (by simp)
      rw [tokens, ih (by simp) fun x hx => h x (by simp [hx])]
      simp [hc, hd, consToken]

/-- A text without white space, before a white-space character, is the first token. -/
theorem tokens_append {m : Text} {s : Char} (n : Text) (hs : isSpace s = true) (hm : m ≠ [])
    (h : ∀ c ∈ m, isSpace c = false) : tokens (m ++ s :: n) = m :: tokens n := by
  induction m with
  | nil => exact absurd rfl hm
  | cons c cs ih =>
    have hc := h c (by simp)
    rw [List.cons_append, tokens]
    cases cs with
    | nil => simp [tokens, hc, hs, consToken]
    | cons d ds =>
      have hd := h d (by simp)
      rw [ih (by simp) fun x hx => h x (by simp [hx])]
      simp [hc, hd, consToken]

/-- A line with a character that is not white space has a token. -/
theorem tokens_ne_nil {l : Text} (h : ∃ c ∈ l, isSpace c = false) : tokens l ≠ [] := by
  induction l with
  | nil => simp at h
  | cons c cs ih =>
    rw [tokens]
    split
    · rename_i hc
      obtain ⟨x, hx, hs⟩ := h
      rcases List.mem_cons.1 hx with rfl | hx
      · simp [hc] at hs
      · exact ih ⟨x, hx, hs⟩
    · unfold consToken
      split
      · simp
      · split <;> simp

/-- A line without a line feed is one raw line. -/
theorem splitLines_single {l : Text} (h : '\n' ∉ l) : splitLines l = [l] := by
  induction l with
  | nil => rfl
  | cons c cs ih =>
    rw [List.mem_cons, not_or] at h
    rw [splitLines, if_neg (Ne.symm h.1), ih h.2]

/-- The first raw line ends at the first line feed. -/
theorem splitLines_append {l : Text} (r : Text) (h : '\n' ∉ l) : splitLines (l ++ '\n' :: r) = l :: splitLines r := by
  induction l with
  | nil => rfl
  | cons c cs ih =>
    rw [List.mem_cons, not_or] at h
    rw [List.cons_append, splitLines, if_neg (Ne.symm h.1), ih h.2]

/-- The decimal numeral of a number, digit by digit. -/
theorem decimal_step (n : Nat) :
    decimal n = if n < 10 then [Nat.digitChar n] else decimal (n / 10) ++ [Nat.digitChar (n % 10)] := by
  unfold decimal
  split
  · rw [Nat.toDigits_of_lt_base (by omega)]
  · rw [Nat.toDigits_of_base_le (by omega) (by omega)]

end Sys2Proof.Asm
end

