-- ==== Sys2Proof/Tests/Slice0.lean ====
section
/-! SUPPORT. Tests: expected results are taken from spec/95_test_vectors.md and the rules, never from the model; and one
witness per statement with hypotheses, each a concrete state and operands that meet them. -/

namespace Sys2Proof.Tests

open Sys2Proof Sys2Proof.Machine Sys2Proof.Asm

/-! ### Well-formedness: an ill-formed term for each check -/

theorem test_wellFormed_refuses_operand_100 :
    ([Instr.hlt 100, .add 100, .sub 100, .sta 100, .lda 100, .bra 100, .brz 100, .inp 100, .out 100,
      .reserved9 100].map Instr.wellFormed) = List.replicate 10 false := by decide

theorem test_wellFormed_refuses_dat_1000 : (Instr.dat 1000).wellFormed = false := by decide

theorem test_wellFormed_accepts_the_ends :
    ([Instr.hlt 0, .hlt 99, .out 99, .reserved9 99, .dat 0, .dat 999].map Instr.wellFormed) =
      List.replicate 6 true := by decide

/-! ### Decoding: words of 95_test_vectors.md V-DEC -/

theorem test_decode_hlt : decode 5 = .ok (.hlt 5) := by decide
theorem test_decode_add : decode 107 = .ok (.add 7) := by decide
theorem test_decode_sub : decode 200 = .ok (.sub 0) := by decide
theorem test_decode_sta : decode 399 = .ok (.sta 99) := by decide
theorem test_decode_lda : decode 450 = .ok (.lda 50) := by decide
theorem test_decode_bra : decode 500 = .ok (.bra 0) := by decide
theorem test_decode_brz : decode 699 = .ok (.brz 99) := by decide
theorem test_decode_inp : decode 705 = .ok (.inp 5) := by decide
theorem test_decode_out : decode 899 = .ok (.out 99) := by decide
theorem test_decode_reserved9 : decode 999 = .ok (.reserved9 99) := by decide
/-- A DAT's cell holds its value and decodes as it stands: VAL DAT 5 (S8) gives the word 5, a HLT. -/
theorem test_decode_dat : encode (.dat 5) = 5 ∧ decode (encode (.dat 5)) = .ok (.hlt 5) := by decide
theorem test_decode_refuses_1000 : decode 1000 = .error .wordOutOfRange := by decide
/-- The table's match for ADD is 0x100 (30_encoding.md R50); 0x107 is the image of 107, 0x10A the image of no word. -/
theorem test_decodeTableWord : decodeTableWord 16 0x107 = some (.add 7) ∧ decodeTableWord 12 0x999 = some (.reserved9 99) ∧
    decodeTableWord 16 0x10A = none := by decide

/-! ### Codec vectors: V-ENC, V-TXT -/

theorem test_encodeMnemonic : encodeMnemonic "STA".toList 99 = .ok 399 ∧ encodeMnemonic "ADD".toList 150 = .ok 250 ∧
    encodeMnemonic "DAT".toList 1000 = .ok 1000 ∧ encodeMnemonic "add".toList 7 = .error .translationFailure := by decide
theorem test_toText : toText 599 = .ok "BRA 99".toList ∧ toText 705 = .ok "INP 5".toList ∧ toText 99 = .ok "HLT".toList ∧
    toText 410 = .ok "LDA 10".toList ∧ toText 900 = .error .noText := by decide

/-- `N_OPCODES` (00_scope.md R3). -/
theorem test_opcodeMap_has_nine_rows : opcodeMap.length = Config.numOpcodes := by decide

/-! ### One step of each instruction: V-STEP -/

/-- A running state. -/
def st (pc acc : Nat) (mem : Memory) (inq : List Int) (outq : List Nat) : State :=
  { mem := mem, acc := acc, pc := pc, inq := inq, outq := outq, running := true }

/-- The next state, if there is one. -/
def next? : StepResult → Option State
  | .next t => some t
  | .fault _ => none
  | .refused _ => none

theorem test_add_keeps_999 : next? (step (st 10 600 [(10, 120), (20, 399)] [] [])) =
    some (st 11 999 [(10, 120), (20, 399)] [] []) := by decide
theorem test_add_drops_1000 : (next? (step (st 10 600 [(10, 120), (20, 400)] [] []))).map (·.acc) = some 600 := by decide
theorem test_sub_to_zero : (next? (step (st 10 5 [(10, 220), (20, 5)] [] []))).map (·.acc) = some 0 := by decide
theorem test_sub_drops_negative : (next? (step (st 10 3 [(10, 220), (20, 5)] [] []))).map (·.acc) = some 3 := by decide
theorem test_sta_own_cell : next? (step (st 10 800 [(10, 310)] [] [])) = some (st 11 800 [(10, 800)] [] []) := by decide
theorem test_sta_zero_unlists : (next? (step (st 10 0 [(0, 512), (10, 300)] [] []))).map (·.mem) = some [(10, 300)] := by decide
theorem test_lda_own_word : (next? (step (st 10 1 [(10, 410)] [] []))).map (·.acc) = some 410 := by decide
theorem test_lda_keeps_cell : next? (step (st 10 1 [(10, 430), (30, 777)] [] [])) =
    some (st 11 777 [(10, 430), (30, 777)] [] []) := by decide
theorem test_hlt_ignores_operand : (next? (step (st 10 6 [(10, 77)] [] []))).map (fun t => (t.running, t.pc, t.acc)) =
    some (false, 11, 6) := by decide
theorem test_hlt_at_99 : (next? (step (st 99 6 [] [] []))).map (fun t => (t.running, t.pc)) = some (false, 99) := by decide
theorem test_bra_at_99 : (next? (step (st 99 1 [(99, 505)] [] []))).map (·.pc) = some 5 := by decide
theorem test_bra_to_99 : (next? (step (st 10 1 [(10, 599)] [] []))).map (·.pc) = some 99 := by decide
theorem test_brz_taken : (next? (step (st 10 0 [(10, 642)] [] []))).map (·.pc) = some 42 := by decide
theorem test_brz_not_taken_at_99 : (next? (step (st 99 1 [(99, 600)] [] []))).map (·.pc) = some 99 := by decide
theorem test_reserved9_advances : next? (step (st 10 6 [(10, 999)] [] [])) = some (st 11 6 [(10, 999)] [] []) := by decide
theorem test_reserved9_at_99 : next? (step (st 99 6 [(99, 950)] [] [])) = some (st 99 6 [(99, 950)] [] []) := by decide
theorem test_inp_empty : (next? (step (st 10 44 [(10, 700)] [] []))).map (fun t => (t.acc, t.inq)) = some (0, []) := by decide
theorem test_inp_out_of_range : (next? (step (st 10 44 [(10, 700)] [1000, 1] []))).map (fun t => (t.acc, t.inq)) =
    some (44, [1]) := by decide
theorem test_out_appends : (next? (step (st 10 0 [(10, 800)] [] [3]))).map (·.outq) = some [3, 0] := by decide
theorem test_out_ignores_operand : (next? (step (st 10 999 [(10, 812)] [] []))).map (·.outq) = some [999] := by decide
/-- A cell made by `DAT 550` that the program counter reaches executes as BRA 50 (30_encoding.md R41). -/
theorem test_dat_executes_as_its_word : next? (exec (.dat 550) (st 10 0 [] [] [])) = some (st 50 0 [] [] []) := by decide
/-- `DAT 1000` never reaches its cell, which keeps 0 and so halts (45_assembler.md R87, R124). -/
theorem test_dat_above_999_halts : (next? (exec (.dat 1000) (st 10 0 [] [] []))).map (·.running) = some false := by decide

theorem test_step_halted : step (clearRunning State.reset) = .fault .halted := by rfl
theorem test_withFetchWord_runs_first : (next? (step (State.reset.withFetchWord 16 0x812))).map (·.outq) = some [0] := by decide

/-! ### The guarded accessors: V-ACC -/

theorem test_accWrite : (accWrite 999 (st 0 5 [] [] [])).acc = 999 ∧ (accWrite 1000 (st 0 5 [] [] [])).acc = 5 ∧
    (accWrite (-1) (st 0 5 [] [] [])).acc = 5 := by decide
theorem test_pcWrite : (pcWrite 99 (st 7 0 [] [] [])).pc = 99 ∧ (pcWrite 100 (st 7 0 [] [] [])).pc = 7 ∧
    (pcWrite (-1) (st 7 0 [] [] [])).pc = 7 := by decide
theorem test_memWrite : (memWrite 0 0 (st 0 0 [(0, 9)] [] [])).mem = [] ∧ (memWrite 99 999 (st 0 0 [] [] [])).mem = [(99, 999)] ∧
    (memWrite 100 5 State.reset).mem = [] ∧ (memWrite 0 1000 (st 0 0 [(0, 9)] [] [])).mem = [(0, 9)] := by decide
theorem test_memRead : memRead 0 (st 0 0 [(0, 9)] [] []) = 9 ∧ memRead (-1) (st 0 0 [(0, 9)] [] []) = 0 ∧
    memRead 1000000 State.reset = 0 := by decide

/-! ### Assembler, resolver, Loader: V-ASM, V-LOAD -/

/-- V-A1. -/
theorem test_assemble_labels : assemble "x\nLOOP LDA VAL\nVAL DAT 5\nx".toList = .lists [401, 5] [] := by decide
/-- V-A2, its first two lines, comments and blanks. -/
theorem test_assemble_spacing :
    assemble "x\nHERE BRA HERE\nPTR DAT VAL\nVAL DAT 42\n  ADD   07  // zeros\n\nLDA\n// whole\nx".toList =
      .lists [500, 2, 42, 107, 400] [] := by decide
/-- A comment starts at the first `//`, so a lone slash stays (45_assembler.md R77). -/
theorem test_removeComment_keeps_lone_slash : removeComment "A/B//C//D".toList = "A/B".toList ∧
    removeComment "A/".toList = "A/".toList := by decide
/-- V-A3, lines 0, 4, 7 and 8. -/
theorem test_assemble_rejects : assemble "x\nADD 150\nA B C D\nL2 HLT\nADD HLT\nx".toList =
    .lists [250] [⟨1, "A B C D".toList⟩, ⟨2, "L2 HLT".toList⟩, ⟨3, "ADD HLT".toList⟩] := by decide
/-- V-A4, first and third rows. -/
theorem test_assemble_framing : assemble "INP\nOUT\nHLT".toList = .lists [800] [] ∧ assemble "HLT".toList = .lists [] [] := by
  decide
/-- V-A5. -/
theorem test_assemble_refuses : assemble "x\nLOOP\nADD 1\nBRA LOOP\nx".toList = .refused (.bareLabel "LOOP".toList) ∧
    assemble "x\nA DAT 1\nA DAT 2\nx".toList = .refused (.duplicateLabel "A".toList) := by decide
/-- V-LOAD, second and third rows. -/
theorem test_load : load [700, 800, 0] [5] { st 3 9 [(50, 1)] [] [9] with running := false } =
    st 0 0 [(0, 700), (1, 800)] [5] [] ∧ (load [1000, 5] [] State.reset).mem = [(1, 5)] := by decide
/-- S9. -/
theorem test_assembleThenLoad_refuses : assembleThenLoad "x\nFOO 3\nx".toList [1] (st 3 9 [] [] [9]) =
    .reported [⟨0, "FOO 3".toList⟩] (st 3 9 [] [] [9]) := by decide
/-- S11, the load: the text of program P1. -/
theorem test_assembleThenLoad_loads : assembleThenLoad "// begin\nINP\nOUT\nHLT\n// end".toList [5] State.reset =
    .loaded (st 0 0 [(0, 700), (1, 800)] [5] []) := by decide

/-! ### Witnesses: each meets the hypotheses of the statement it is named after -/

theorem witness_MemoryReadIsGuarded : (0 ≤ (99 : Int) ∧ (99 : Int) ≤ 99) ∧ ((-1 : Int) < 0 ∨ 99 < (-1 : Int)) ∧
    ((100 : Int) < 0 ∨ 99 < (100 : Int)) := by decide
theorem witness_MemoryWriteIsGuarded : Memory.wf (st 0 0 [(99, 7)] [] []).mem = true ∧
    (0 ≤ (99 : Int) ∧ (99 : Int) ≤ 99 ∧ 0 ≤ (999 : Int) ∧ (999 : Int) ≤ 999) ∧
    ((100 : Int) < 0 ∨ 99 < (100 : Int) ∨ (5 : Int) < 0 ∨ 999 < (5 : Int)) ∧
    ((0 : Int) < 0 ∨ 99 < (0 : Int) ∨ (1000 : Int) < 0 ∨ 999 < (1000 : Int)) := by decide
theorem witness_RegisterWritesAreGuarded : (0 ≤ (999 : Int) ∧ (999 : Int) ≤ 999) ∧ ((1000 : Int) < 0 ∨ 999 < (1000 : Int)) ∧
    (0 ≤ (99 : Int) ∧ (99 : Int) ≤ 99) ∧ ((100 : Int) < 0 ∨ 99 < (100 : Int)) := by decide
theorem witness_HostAccessorsReadTheFields : ((100 : Int) < 0 ∨ 99 < (100 : Int)) ∧ ((-1 : Int) < 0 ∨ 99 < (-1 : Int)) := by decide

/-- Two states of one step, the next one halted: the word 99 at address 98. -/
theorem witness_RunFlagClearedOnlyByHalt : step (st 98 0 [(98, 99)] [] []) =
    .next { st 99 0 [(98, 99)] [] [] with running := false } := by rfl
/-- And the next one running: the word 100 at address 98. -/
theorem witness_RunFlagClearedOnlyByHalt_running : step (st 98 0 [(98, 100)] [] []) = .next (st 99 0 [(98, 100)] [] []) := by rfl

theorem witness_DecodeSplitsEveryWord : (999 : Nat) ≤ 999 ∧ 999 < 1000 := by decide
theorem witness_DecoderFollowsOpcodeMap : (99 : Nat) ≤ 99 ∧ (9 : Nat) ≤ 9 := by decide
theorem witness_DecodeOfEncodeIsTheInstruction : (Instr.out 99).wellFormed = true ∧ (Instr.out 99).isPseudo = false := by decide
theorem witness_EncodeOfDecodeIsTheWord : decode 999 = .ok (.reserved9 99) := by decide
theorem witness_MnemonicEncoderFollowsFormula : ("OUT".toList, 8) ∈ opcodeMap ∧ "Dat".toList ∉ reservedWords := by decide
theorem witness_ToTextOmitsOperandOfHaltAndZero : (899 : Nat) ≤ 899 ∧ (1 : Nat) ≠ 0 ∧ (0 : Nat) = 0 := by decide
theorem witness_NoTextForOpcodeNine : (900 : Nat) ≤ 900 := by decide
theorem witness_TextRoundTrip : ((100 : Nat) = 0 ∨ 100 ≤ 100 ∧ 100 ≤ 899) ∧ ((0 : Nat) = 0 ∨ 100 ≤ 0 ∧ 0 ≤ 899) ∧
    ((1 : Nat) ≤ 99 ∧ 1 ≤ 1) ∧ (("OUT".toList, 8) ∈ opcodeMap ∧ (99 : Nat) ≤ 99) := by decide
theorem witness_TableImageDecodesAsTheWord : (999 : Nat) ≤ 999 := by decide

theorem witness_StepRunsTheDecodedInstruction : (st 99 5 [(99, 199)] [] []).running = true ∧
    decode (memRead ((st 99 5 [(99, 199)] [] []).pc : Int) (st 99 5 [(99, 199)] [] [])) = .ok (.add 99) ∧
    (st 99 5 [(99, 199)] [] []).Inv := by decide
theorem witness_IncrementIsDroppedAtTheLastCell_below : (st 98 0 [] [] []).pc ≤ 98 := by decide
theorem witness_IncrementIsDroppedAtTheLastCell_again : (st 99 4 [(99, 800)] [] []).Inv ∧ (st 99 4 [(99, 800)] [] []).pc = 99 ∧
    100 ≤ memRead 99 (st 99 4 [(99, 800)] [] []) ∧ memRead 99 (st 99 4 [(99, 800)] [] []) / 100 ≠ 5 ∧
    ¬ (memRead 99 (st 99 4 [(99, 800)] [] []) / 100 = 6 ∧ (st 99 4 [(99, 800)] [] []).acc = 0) := by decide
theorem witness_IncrementIsDroppedAtTheLastCell_again_steps : step (st 99 4 [(99, 800)] [] []) =
    .next (st 99 4 [(99, 800)] [] [4]) := by rfl
theorem witness_IncrementIsDroppedAtTheLastCell_halt : (st 99 4 [(99, 99)] [] []).pc = 99 ∧
    memRead 99 (st 99 4 [(99, 99)] [] []) ≤ 99 := by decide
theorem witness_IncrementIsDroppedAtTheLastCell_halt_steps : step (st 99 4 [(99, 99)] [] []) =
    .next { st 99 4 [(99, 99)] [] [] with running := false } := by rfl
theorem witness_ExecuteFollowsTheOpcodeList : (st 0 0 [] [] []).inq = [] ∧ (st 0 0 [] [1000, 2] []).inq = 1000 :: [2] ∧
    (9 : Nat) ≤ 9 := by decide
theorem witness_HaltedMachineTakesNoStep : (clearRunning State.reset).running = false := by decide
theorem witness_NoStepFails : (st 99 999 [(99, 999)] [] [999]).Inv ∧ (st 99 999 [(99, 999)] [] [999]).running = true := by decide
theorem witness_RunIsRepeatedStep : runFor 1 (st 0 0 [(0, 900)] [] []) = .next (st 1 0 [(0, 900)] [] []) ∧
    (st 0 0 [(0, 900)] [] []).running = true := ⟨by rfl, by rfl⟩
theorem witness_RunEndsOnlyByHalt : (st 0 0 [(0, 900)] [] []).running = true ∧
    runFor 2 (st 0 0 [(0, 900)] [] []) = .next { st 2 0 [(0, 900)] [] [] with running := false } := ⟨by rfl, by rfl⟩
theorem witness_BranchToItselfNeverEnds : (st 99 0 [(99, 599)] [] []).running = true ∧ (st 99 0 [(99, 599)] [] []).pc ≤ 99 ∧
    memRead ((st 99 0 [(99, 599)] [] []).pc : Int) (st 99 0 [(99, 599)] [] []) = 500 + (st 99 0 [(99, 599)] [] []).pc := by decide

/-- For the statements of AddStoresExactSumOrKeeps, SubStoresExactDifferenceOrKeeps, ArithmeticConsequences,
StaCopiesAccumulatorToCell and LdaCopiesCellToAccumulator: the last operand, in a state at the ends of its ranges. -/
theorem witness_AddStoresExactSumOrKeeps : (99 : Nat) ≤ 99 := by decide
theorem witness_SubStoresExactDifferenceOrKeeps : (99 : Nat) ≤ 99 ∧ (st 99 999 [(99, 999)] [] []).Inv := by decide
theorem witness_ArithmeticConsequences : (99 : Nat) ≤ 99 ∧ (st 0 0 [(99, 999)] [] []).Inv ∧
    (st 0 0 [(99, 999)] [] []).acc + memRead 99 (st 0 0 [(99, 999)] [] []) ≤ 999 := by decide
theorem witness_StaCopiesAccumulatorToCell : (99 : Nat) ≤ 99 ∧ (st 99 999 [(98, 1)] [] []).Inv ∧ (98 : Int) ≠ (99 : Nat) := by decide
theorem witness_LdaCopiesCellToAccumulator : (99 : Nat) ≤ 99 ∧ (st 99 999 [(99, 7)] [] []).Inv := by decide

theorem witness_HltClearsTheRunFlag_below : (99 : Nat) ≤ 99 ∧ (st 98 0 [(98, 99)] [] []).running = true ∧
    memRead ((st 98 0 [(98, 99)] [] []).pc : Int) (st 98 0 [(98, 99)] [] []) ≤ 99 ∧ (st 98 0 [(98, 99)] [] []).pc ≤ 98 := by decide
theorem witness_HltClearsTheRunFlag_last : (st 99 0 [] [] []).running = true ∧
    memRead ((st 99 0 [] [] []).pc : Int) (st 99 0 [] [] []) ≤ 99 ∧ (st 99 0 [] [] []).pc = 99 := by decide
theorem witness_HltClearsTheRunFlag_frozen : (clearRunning State.reset).running = false := by decide
theorem witness_BraSetsProgramCounter : (99 : Nat) ≤ 99 ∧ (st 99 0 [(99, 599)] [] []).running = true ∧
    memRead ((st 99 0 [(99, 599)] [] []).pc : Int) (st 99 0 [(99, 599)] [] []) = 500 + 99 := by decide
theorem witness_BrzBranchesExactlyOnZero : (99 : Nat) ≤ 99 ∧ (st 99 1 [(99, 699)] [] []).Inv ∧
    (st 99 1 [(99, 699)] [] []).running = true ∧
    memRead ((st 99 1 [(99, 699)] [] []).pc : Int) (st 99 1 [(99, 699)] [] []) = 600 + 99 := by decide
theorem witness_OpcodeNineIsNoOperation_below : (99 : Nat) ≤ 99 ∧ (st 98 0 [(98, 999)] [] []).running = true ∧
    memRead ((st 98 0 [(98, 999)] [] []).pc : Int) (st 98 0 [(98, 999)] [] []) = 900 + 99 ∧
    (st 98 0 [(98, 999)] [] []).pc ≤ 98 := by decide
theorem witness_OpcodeNineIsNoOperation_last : (0 : Nat) ≤ 99 ∧ (st 99 0 [(99, 900)] [] []).running = true ∧
    memRead ((st 99 0 [(99, 900)] [] []).pc : Int) (st 99 0 [(99, 900)] [] []) = 900 + 0 ∧
    (st 99 0 [(99, 900)] [] []).pc = 99 := by decide
theorem witness_NextFetchAddress : (st 99 1 [(99, 600)] [] []).Inv := by decide
theorem witness_NextFetchAddress_steps : step (st 99 1 [(99, 600)] [] []) = .next (st 99 1 [(99, 600)] [] []) := by rfl

theorem witness_InpTakesFrontOrZero : (99 : Nat) ≤ 99 ∧ (st 0 5 [] [] []).inq = [] ∧ (st 0 5 [] [999, 1] []).inq = 999 :: [1] ∧
    0 ≤ (999 : Int) ∧ (999 : Int) ≤ 999 := by decide
theorem witness_InpConsumesOutOfRangeElement : (st 0 5 [] [1000, 1] []).inq = 1000 :: [1] ∧ ((1000 : Int) < 0 ∨ 999 < (1000 : Int)) ∧
    (st 0 5 [] [-1] []).inq = -1 :: [] ∧ ((-1 : Int) < 0 ∨ 999 < (-1 : Int)) := by decide
theorem witness_OutAppendsAccumulator : (99 : Nat) ≤ 99 := by decide
theorem witness_DatCellExecutesAsItsWord : (999 : Nat) ≤ 999 ∧ 999 < 1000 := by decide

theorem witness_AccumulatorInstructionsFrame_add : exec (.add 99) (st 5 600 [(99, 399)] [] []) =
    .next (st 5 999 [(99, 399)] [] []) := by rfl
theorem witness_AccumulatorInstructionsFrame_sub : exec (.sub 99) (st 5 400 [(99, 399)] [] []) =
    .next (st 5 1 [(99, 399)] [] []) := by rfl
theorem witness_AccumulatorInstructionsFrame_lda : exec (.lda 99) (st 5 400 [(99, 399)] [] []) =
    .next (st 5 399 [(99, 399)] [] []) := by rfl
theorem witness_StoreFrame_sta : exec (.sta 99) (st 5 400 [(98, 1)] [] []) = .next (st 5 400 [(98, 1), (99, 400)] [] []) ∧
    (98 : Int) ≠ effectiveAddress 99 := ⟨by rfl, by decide⟩
theorem witness_StoreFrame_dat : exec (.dat 399) (st 5 400 [(98, 1)] [] []) = .next (st 5 400 [(98, 1), (99, 400)] [] []) ∧
    399 / 100 = 3 ∧ (98 : Int) ≠ effectiveAddress (399 % 100) ∧ 399 / 100 ∉ [1, 2, 4, 7] ∧ 399 / 100 ∉ [5, 6] ∧ 399 / 100 ≠ 7 ∧
    399 / 100 ≠ 8 ∧ 100 ≤ 399 ∧ 399 ≤ 999 := ⟨by rfl, by decide⟩
theorem witness_StoreFrame_dat_no_store : exec (.dat 999) (st 5 400 [(98, 1)] [] []) = .next (st 5 400 [(98, 1)] [] []) ∧
    999 / 100 ≠ 3 := ⟨by rfl, by decide⟩
theorem witness_ControlInstructionsFrame_hlt : exec (.hlt 0) (st 5 0 [] [] []) =
    .next { st 5 0 [] [] [] with running := false } := by rfl
theorem witness_ControlInstructionsFrame_bra : exec (.bra 99) (st 5 0 [] [] []) = .next (st 99 0 [] [] []) ∧
    Instr.bra 99 ≠ .hlt 99 := ⟨by rfl, by decide⟩
theorem witness_ControlInstructionsFrame_brz : exec (.brz 99) (st 5 0 [] [] []) = .next (st 99 0 [] [] []) := by rfl
theorem witness_ControlInstructionsFrame_reserved9 : exec (.reserved9 99) (st 5 0 [] [] []) = .next (st 5 0 [] [] []) := by rfl
theorem witness_InputOutputFrame_inp : exec (.inp 0) (st 5 0 [] [7, 2] []) = .next (st 5 7 [] [2] []) := by rfl
theorem witness_InputOutputFrame_out : exec (.out 0) (st 5 3 [] [] [8, 1]) = .next (st 5 3 [] [] [8, 1, 3]) := by rfl

theorem witness_StepChangesAtMostTheStoredCell : (st 98 7 [(98, 399)] [] []).Inv ∧
    memRead 99 (st 99 7 [(98, 399), (99, 7)] [] []) ≠ memRead 99 (st 98 7 [(98, 399)] [] []) := by decide
theorem witness_StepChangesAtMostTheStoredCell_steps : step (st 98 7 [(98, 399)] [] []) =
    .next (st 99 7 [(98, 399), (99, 7)] [] []) := by rfl
theorem witness_QueuesChangeOnlyByInpAndOut : (st 99 7 [(99, 899)] [] [1]).Inv ∧ (st 99 7 [(99, 700)] [4] [1]).Inv := by decide
theorem witness_QueuesChangeOnlyByInpAndOut_steps : step (st 99 7 [(99, 899)] [] [1]) = .next (st 99 7 [(99, 899)] [] [1, 7]) ∧
    step (st 99 7 [(99, 700)] [4] [1]) = .next (st 99 4 [(99, 700)] [] [1]) := ⟨by rfl, by rfl⟩
/-- The store that the very next fetch reads: STA 99 at address 98. -/
theorem witness_StoreIsSeenByTheNextFetch : (99 : Nat) ≤ 99 ∧ (st 98 800 [(98, 399)] [] []).Inv ∧
    (st 98 800 [(98, 399)] [] []).running = true ∧
    memRead ((st 98 800 [(98, 399)] [] []).pc : Int) (st 98 800 [(98, 399)] [] []) = 300 + 99 ∧
    (next? (step (st 98 800 [(98, 399)] [] []))).map (·.pc) = some 99 := by decide

theorem witness_StepKeepsRangeInvariant : (st 98 0 [(98, 99)] [] [999]).Inv := by decide
theorem witness_StepKeepsRangeInvariant_steps : step (st 98 0 [(98, 99)] [] [999]) =
    .next { st 99 0 [(98, 99)] [] [999] with running := false } := by rfl
/-- A state reached by a load and a step. -/
theorem witness_ReachableStatesAreInRange : Reachable (st 1 7 [(0, 700)] [] []) :=
  .step (s := load [700] [7] State.reset) (.load [700] [7] .reset) (by rfl)

theorem witness_LoadPlacesProgramAndInput : (1 : Nat) ≤ 99 ∧ ([999, 1000] : List Int)[1]? = some 1000 ∧ (0 : Nat) ≤ 99 ∧
    ([999, 1000] : List Int)[0]? = some 999 ∧ ([999, 1000] : List Int).length ≤ 2 := by decide
theorem witness_AssembleThenLoadIsAllOrNothing : assemble "x\nHLT\nx".toList = .lists [0] [] ∧
    assemble "x\nFOO 3\nx".toList = .lists [] [⟨0, "FOO 3".toList⟩] ∧
    ([⟨0, "FOO 3".toList⟩] : List Rejected) ≠ [] := by decide
theorem witness_FramingLinesAreDiscarded : '\n' ∉ "x".toList ∧ '\n' ∉ ([] : Text) ∧ (∀ l ∈ ["HLT".toList], '\n' ∉ l) ∧
    '\n' ∉ "HLT".toList := by decide
/-- A lone slash before the comment, and one at the end of a line without a comment. -/
theorem witness_CleanedLinesHaveTokens_comment : ¬ ['/', '/'] <:+: "A/B ".toList ++ ['/'] ∧ ¬ ['/', '/'] <:+: "A/".toList ∧
    ¬ ['/', '/'] <:+: ([] : Text) ++ ['/'] := by decide
theorem witness_CleanedLinesHaveTokens_trim : (∀ c ∈ [' ', '\t'] ++ ['\r'], isSpace c = true) ∧
    ['A', ' ', '7'].head?.all (fun c => !isSpace c) = true ∧ ['A', ' ', '7'].getLast?.all (fun c => !isSpace c) = true ∧
    ([] : Text).head?.all (fun c => !isSpace c) = true ∧ ([] : Text).getLast?.all (fun c => !isSpace c) = true := by simp [isSpace]
theorem witness_CleanedLinesHaveTokens_cleaned : '\n' ∉ "x".toList ∧ '\n' ∉ ([] : Text) ∧
    (∀ l ∈ ["// whole".toList, " HLT ".toList], '\n' ∉ l) := by decide
theorem witness_CleanedLinesHaveTokens_tokens : isSpace '\r' = true ∧ ['A', '/'] ≠ [] ∧
    ∀ c ∈ ['A', '/'], isSpace c = false := by simp [isSpace]
theorem witness_CleanedLinesHaveTokens : "HLT".toList ∈ cleanedLines "x\n HLT // stop\nx".toList := by decide
theorem witness_LineShapesByTokenCount : isReserved "ADD".toList = true ∧ isLabel "LOOP".toList = true ∧
    isReserved "LOOP".toList = false ∧ isReserved "5".toList = false ∧ isLabel "5".toList = false := by decide
theorem witness_LabelIsBoundToItsDeclaringLine : refusal (programLines "x\nLOOP LDA VAL\nVAL DAT 5\nx".toList) = none ∧
    (programLines "x\nLOOP LDA VAL\nVAL DAT 5\nx".toList)[1]? =
      some ⟨1, "VAL DAT 5".toList, .record (some "VAL".toList) "DAT".toList (some "5".toList)⟩ := by decide
theorem witness_OperandResolution : isNumeral "07".toList = true ∧ isLabel "VAL".toList = true ∧
    isNumeral "HLT".toList = false ∧ ([] : LabelTable).lookup "HLT".toList = none ∧ 48 ≤ '0'.toNat ∧ '9'.toNat ≤ 57 := by decide
theorem witness_RefusedExactlyOnBareOrDuplicateLabel : assemble "x\nA DAT 1\nA DAT 2\nx".toList =
    .refused (.duplicateLabel "A".toList) := by decide
/-- Records whose operand resolves and does not, and lines of the two other shapes. -/
theorem witness_LinesArePartitioned_encode :
    (⟨0, "A ADD B".toList, .record (some "A".toList) "ADD".toList (some "B".toList)⟩ : Line).shape =
      .record (some "A".toList) "ADD".toList (some "B".toList) ∧
    resolveOperand [("B".toList, 99)] (some "B".toList) = some 99 ∧ resolveOperand [] (some "B".toList) = none ∧
    (⟨0, "A B C".toList, .malformed⟩ : Line).shape = .malformed ∧
    ∃ name, (⟨0, "A".toList, .bareLabel "A".toList⟩ : Line).shape = .bareLabel name := by
  exact ⟨by rfl, by decide, by decide, by rfl, _, by rfl⟩
theorem witness_LinesArePartitioned : assemble "x\nINP\nFOO 3\nHLT\nx".toList = .lists [700, 0] [⟨1, "FOO 3".toList⟩] := by decide
theorem witness_LinearisedTextEncodesAlike : "DAT".toList ∈ reservedWords ∧ (1 : Nat) ≠ 0 ∧
    resolveOperand [("L".toList, 0)] (some "L".toList) = some 0 := by decide
theorem witness_AssembledProgramIsLoadedInAddressOrder : assemble "x\nLOOP LDA VAL\nVAL DAT 999\nx".toList = .lists [401, 999] [] ∧
    ([401, 999] : List Nat)[1]? = some 999 ∧ (1 : Nat) ≤ 99 ∧ (999 : Nat) ≤ 999 := by decide

end Sys2Proof.Tests
end

/-! ## 10_state.md: the guarded writes, what a step can do, and the range invariant -/

namespace Sys2Proof.Machine

/-! ### The guarded register writes, each with its guard decided (10_state.md R13) -/

theorem accWrite_of_inRange {v : Int} {s : State} (h0 : 0 ≤ v) (h1 : v ≤ 999) :
    accWrite v s = { s with acc := v.toNat } :=
  (accWrite_cases v s).elim (·.2.2) fun ⟨hout, _⟩ => absurd ⟨h0, h1⟩ hout

theorem accWrite_of_outOfRange {v : Int} {s : State} (h : v < 0 ∨ 999 < v) : accWrite v s = s :=
  (accWrite_cases v s).elim (fun ⟨h0, h1, _⟩ => by omega) (·.2)

theorem pcWrite_of_inRange {v : Int} {s : State} (h0 : 0 ≤ v) (h1 : v < 100) :
    pcWrite v s = { s with pc := v.toNat } :=
  (pcWrite_cases v s).elim (·.2.2) fun ⟨hout, _⟩ => absurd ⟨h0, h1⟩ hout

theorem pcWrite_of_outOfRange {v : Int} {s : State} (h : v < 0 ∨ 100 ≤ v) : pcWrite v s = s :=
  (pcWrite_cases v s).elim (fun ⟨h0, h1, _⟩ => by omega) (·.2)

/-! ### What a step can do, said once -/

/-- The states that the execute phase can answer from `s` on an opcode (the first index) and the operand `n`: one
constructor per row of the opcode list (40_step_cycle.md R55), two for BRZ. -/
inductive ExecEffect (n : Nat) (s : State) : Nat → State → Prop where
  | hlt : ExecEffect n s 0 (clearRunning s)
  | add : ExecEffect n s 1 (accWrite ((s.acc : Int) + memRead (n : Int) s) s)
  | sub : ExecEffect n s 2 (accWrite ((s.acc : Int) - memRead (n : Int) s) s)
  | sta : ExecEffect n s 3 (memWrite (n : Int) (s.acc : Int) s)
  | lda : ExecEffect n s 4 (accWrite (memRead (n : Int) s : Int) s)
  | bra : ExecEffect n s 5 (pcWrite (n : Int) s)
  | brzTaken : s.acc = 0 → ExecEffect n s 6 (pcWrite (n : Int) s)
  | brzNotTaken : s.acc ≠ 0 → ExecEffect n s 6 s
  | inp : ExecEffect n s 7 (accWrite (takeInput s).1 (takeInput s).2)
  | out : ExecEffect n s 8 (putOutput s.acc s)
  | noOperation (k : Nat) : ExecEffect n s (k + 9) s

section
variable {n k : Nat} {s t : State}

/-- The relation is `exec` on the rows that the decoder answers. -/
theorem exec_instrOf_iff : exec (instrOf k n) s = .next t ↔ ExecEffect n s k t := by
  constructor
  · intro h
    match k with
    | 0 => cases h; exact .hlt
    | 1 => cases h; exact .add
    | 2 => cases h; exact .sub
    | 3 => cases h; exact .sta
    | 4 => cases h; exact .lda
    | 5 => cases h; exact .bra
    | 6 =>
      rw [instrOf, exec_brz] at h
      cases h
      split
      · exact .brzTaken ‹_›
      · exact .brzNotTaken ‹_›
    | 7 => cases h; exact .inp
    | 8 => cases h; exact .out
    | k + 9 => cases h; exact .noOperation k
  · intro h
    cases h with
    | brzTaken h0 => rw [instrOf, exec_brz, if_pos h0]
    | brzNotTaken h0 => rw [instrOf, exec_brz, if_neg h0]
    | _ => rfl

/-- A step that answers a next state started running, fetched a word in [0, 999], and did after the increment what the
row of its opcode does. -/
theorem step_next_effect (h : step s = .next t) :
    s.running = true ∧ memRead (s.pc : Int) s ≤ 999 ∧
      ExecEffect (memRead (s.pc : Int) s % 100) (advancePc s) (memRead (s.pc : Int) s / 100) t := by
  obtain ⟨hr, hw, he⟩ := step_next h
  exact ⟨hr, hw, exec_instrOf_iff.1 he⟩

/-- Only HLT writes the run flag (10_state.md R12). -/
theorem ExecEffect.running_eq (h : ExecEffect n s k t) : t.running = if k = 0 then false else s.running := by
  cases h <;> simp

/-- Only OUT writes the output queue (10_state.md R11). -/
theorem ExecEffect.outq_eq (h : ExecEffect n s k t) : t.outq = if k = 8 then s.outq ++ [s.acc] else s.outq := by
  cases h <;> simp

/-- Only INP writes the input queue (10_state.md R10). -/
theorem ExecEffect.inq_eq (h : ExecEffect n s k t) : t.inq = if k = 7 then s.inq.tail else s.inq := by
  cases h <;> simp

end

/-! ### The range invariant, operation by operation (10_state.md R15) -/

section
variable {s t : State} (h : s.Inv)
include h

theorem accWrite_inv (v : Int) : (accWrite v s).Inv := by
  rcases accWrite_cases v s with ⟨_, hv, he⟩ | ⟨_, he⟩ <;> rw [he]
  · obtain ⟨hm, _, hp, ho⟩ := h
    exact ⟨hm, by simp only [Config.accMax_eq]; omega, hp, ho⟩
  · exact h

theorem pcWrite_inv (v : Int) : (pcWrite v s).Inv := by
  rcases pcWrite_cases v s with ⟨_, hv, he⟩ | ⟨_, he⟩ <;> rw [he]
  · obtain ⟨hm, ha, _, ho⟩ := h
    exact ⟨hm, ha, by simp only [Config.pcLimit_eq]; omega, ho⟩
  · exact h

theorem memWrite_inv (a v : Int) : (memWrite a v s).Inv := by
  obtain ⟨hm, ha, hp, ho⟩ := h
  exact ⟨memWrite_wf a v hm, by simpa using ha, by simpa using hp, by simpa using ho⟩

theorem takeInput_inv : (takeInput s).2.Inv := by
  simpa [State.Inv] using h

/-- What OUT appends is the accumulator, so the output elements stay in its range. -/
theorem putOutput_acc_inv : (putOutput s.acc s).Inv := by
  obtain ⟨hm, ha, hp, ho⟩ := h
  refine ⟨hm, ha, hp, fun v hv => ?_⟩
  rcases List.mem_append.1 hv with hold | hnew
  · exact ho v hold
  · exact List.mem_singleton.1 hnew ▸ ha

theorem ExecEffect.inv {n k : Nat} (he : ExecEffect n s k t) : t.Inv := by
  cases he with
  | hlt => exact h
  | add | sub | lda => exact accWrite_inv h _
  | sta => exact memWrite_inv h _ _
  | bra | brzTaken => exact pcWrite_inv h _
  | inp => exact accWrite_inv (takeInput_inv h) _
  | out => exact putOutput_acc_inv h
  | brzNotTaken | noOperation => exact h

theorem step_inv (hs : step s = .next t) : t.Inv := by
  obtain ⟨_, _, he⟩ := step_next_effect hs
  exact he.inv (pcWrite_inv h _)

theorem writeProgram_inv (i : Nat) (program : List Int) : (writeProgram i program s).Inv := by
  induction program generalizing i s with
  | nil => exact h
  | cons w ws ih => exact ih (memWrite_inv h _ _) (i + 1)

end

theorem reset_inv : State.reset.Inv := by decide

/-- The Loader starts from reset and then only writes memory under the guard and installs the input, which the invariant
does not bound. -/
theorem load_inv (program input : List Int) (s : State) : (load program input s).Inv :=
  writeProgram_inv reset_inv 0 program

theorem Reachable.inv {s : State} (h : Reachable s) : s.Inv := by
  induction h with
  | reset => exact reset_inv
  | load program input _ _ => exact load_inv program input _
  | step _ hs ih => exact step_inv ih hs

/-! ### The statements -/

/-- Settles O48: the increment and the execute phase each go through operations that keep the invariant. -/
theorem stepKeepsRangeInvariant : Obligations.StepKeepsRangeInvariant := fun _ _ => step_inv

/-- Settles O6: of the rows of the opcode list HLT alone writes the run flag, and its words are those below 100. -/
theorem runFlagClearedOnlyByHalt : Obligations.RunFlagClearedOnlyByHalt := by
  refine ⟨rfl, fun _ => rfl, fun s t h => ?_⟩
  obtain ⟨hr, _, he⟩ := step_next_effect h
  refine ⟨hr, ?_⟩
  have hopcode : memRead (s.pc : Int) s / 100 = 0 ↔ memRead (s.pc : Int) s < 100 := by omega
  rw [he.running_eq, advancePc_running, hr, ← hopcode]
  simp

/-- Settles O44, from what each row of the opcode list does to the two queues; the increment touches neither. -/
theorem queuesChangeOnlyByInpAndOut : Obligations.QueuesChangeOnlyByInpAndOut := by
  intro s t _ h
  obtain ⟨_, _, he⟩ := step_next_effect h
  exact ⟨by simpa using he.outq_eq, by simpa using he.inq_eq⟩

/-- Settles O47. -/
theorem loadMeetsRangeInvariant : Obligations.LoadMeetsRangeInvariant := load_inv

/-- Settles O49: reachable states meet the invariant, and a canonical memory reads in [0, 999] at every address. -/
theorem reachableStatesAreInRange : Obligations.ReachableStatesAreInRange := by
  intro s hs
  obtain ⟨hm, ha, hp, ho⟩ := hs.inv
  exact ⟨memRead_le hm, ha, Nat.le_of_lt_succ hp, ho⟩

/-- Settles O4. -/
theorem registerWritesAreGuarded : Obligations.RegisterWritesAreGuarded := fun _ _ =>
  ⟨accWrite_of_inRange, accWrite_of_outOfRange, fun h0 h1 => pcWrite_of_inRange h0 (by omega),
    fun h => pcWrite_of_outOfRange (by omega)⟩

/-- Settles O5: each accessor is its field by definition, and memory outside the address space reads 0 (20_memory.md
R23). -/
theorem hostAccessorsReadTheFields : Obligations.HostAccessorsReadTheFields := fun s =>
  ⟨rfl, rfl, rfl, rfl, rfl, fun _ => rfl, fun a h => memRead_out a s (by omega), rfl⟩

end Sys2Proof.Machine

/-! ## 20_memory.md: the guarded memory, and what a store shows to the fetch -/

namespace Sys2Proof.Machine

/-! ### The guarded memory write, with its guard decided (20_memory.md R24) -/

section
variable {a v : Int} {s : State}

theorem memWrite_of_inRange (ha0 : 0 ≤ a) (ha1 : a < 100) (hv0 : 0 ≤ v) (hv1 : v ≤ 999) :
    memWrite a v s = { s with mem := Memory.set s.mem a.toNat v.toNat } :=
  (memWrite_cases a v s).elim (·.2.2.2.2) fun ⟨hout, _⟩ => absurd ⟨ha0, ha1, hv0, hv1⟩ hout

theorem memWrite_of_outOfRange (h : a < 0 ∨ 100 ≤ a ∨ v < 0 ∨ 999 < v) : memWrite a v s = s :=
  (memWrite_cases a v s).elim (fun ⟨ha0, ha1, hv0, hv1, _⟩ => by omega) (·.2)

/-- Performed or dropped, a memory write touches no field but memory. -/
theorem memWrite_eq_with_mem (a v : Int) (s : State) : memWrite a v s = { s with mem := (memWrite a v s).mem } := by
  rcases memWrite_cases a v s with ⟨_, _, _, _, he⟩ | ⟨_, he⟩ <;> rw [he]

/-! ### Reads, and reads after a write (20_memory.md R23, R24) -/

theorem memRead_of_inRange (ha0 : 0 ≤ a) (ha1 : a < 100) : memRead a s = Memory.cell s.mem a.toNat := by
  obtain ⟨n, rfl⟩ := Int.eq_ofNat_of_zero_le ha0
  exact memRead_nat n s (by omega)

/-- The written cell reads as the value: it is neither clamped nor reduced. -/
theorem memRead_memWrite_same (hwf : Memory.wf s.mem = true) (ha0 : 0 ≤ a) (ha1 : a < 100) (hv0 : 0 ≤ v)
    (hv1 : v ≤ 999) : (memRead a (memWrite a v s) : Int) = v := by
  rw [memRead_of_inRange ha0 ha1, memWrite_of_inRange ha0 ha1 hv0 hv1, Memory.cell_set_eq hwf]
  exact Int.toNat_of_nonneg hv0

/-- Every other address reads as before, canonical memory or not. -/
theorem memRead_memWrite_ne {b : Int} (hne : b ≠ a) : memRead b (memWrite a v s) = memRead b s := by
  rcases memWrite_cases a v s with ⟨ha0, _, _, _, he⟩ | ⟨_, he⟩ <;> rw [he]
  by_cases hb : 0 ≤ b ∧ b < 100
  · rw [memRead_of_inRange hb.1 hb.2, memRead_of_inRange hb.1 hb.2]
    exact Memory.cell_set_ne s.mem _ (by omega)
  · rw [memRead_out b _ (by omega), memRead_out b _ (by omega)]

end

/-! ### What a step writes and what it fetches -/

section
variable {s t : State}

/-- Of the rows of the opcode list STA alone writes memory, and only at its operand (20_memory.md R25). -/
theorem ExecEffect.memRead_eq {n k : Nat} {a : Int} (he : ExecEffect n s k t) (h : k = 3 → a ≠ n) :
    memRead a t = memRead a s := by
  cases he with
  | sta => exact memRead_memWrite_ne (h rfl)
  | _ => exact memRead_congr (by simp) a

/-- The next cell, or 99 again when the increment is dropped (40_step_cycle.md R54). -/
theorem advancePc_pc (hpc : s.pc < 100) : (advancePc s).pc = if s.pc = 99 then 99 else s.pc + 1 := by
  rw [advancePc_eq]
  by_cases hlast : s.pc = 99
  · simp [hlast]
  · simp [hlast, show s.pc < 99 by omega]

/-- A step of a running machine whose fetched word decodes (40_step_cycle.md R53). -/
theorem step_of_decode {i : Instr} (hr : s.running = true) (hd : decode (memRead (s.pc : Int) s) = .ok i) :
    step s = exec i (advancePc s) := by
  simp only [step, stepEnabled, hr, if_true, fetchInstr, fetchWord, hd]

/-- The whole step on a store word: the increment, then the guarded write of the accumulator (42_load_store.md R64). -/
theorem step_of_store {n : Nat} (hn : n ≤ 99) (hr : s.running = true) (hw : memRead (s.pc : Int) s = 300 + n) :
    step s = .next (memWrite (n : Int) (s.acc : Int) (advancePc s)) := by
  have hopcode : (300 + n) / 100 = 3 := by omega
  have hoperand : (300 + n) % 100 = n := by omega
  rw [step_eq hr (by omega), hw, hopcode, hoperand, instrOf, exec_sta, advancePc_acc]

end

/-! ### The statements -/

/-- Settles O3. The canonical form is needed for what the written cell reads as and to be kept; the other cells and fields
are left alone in every state. -/
theorem memoryWriteIsGuarded : Obligations.MemoryWriteIsGuarded := fun a v s hwf =>
  ⟨fun ha0 ha1 hv0 hv1 =>
    ⟨memRead_memWrite_same hwf ha0 (by omega) hv0 hv1, fun _ => memRead_memWrite_ne, memWrite_eq_with_mem a v s,
      memWrite_wf a v hwf⟩,
    fun h => memWrite_of_outOfRange (by omega)⟩

/-- Settles O43: the increment leaves memory alone, and no row but STA at its operand changes a read. -/
theorem stepChangesAtMostTheStoredCell : Obligations.StepChangesAtMostTheStoredCell := by
  intro s t a _ hs hchanged
  obtain ⟨_, _, he⟩ := step_next_effect hs
  by_contra hnot
  refine hchanged ?_
  rw [he.memRead_eq (fun hopcode ha => hnot ⟨hopcode, ha⟩)]
  exact memRead_congr (advancePc_mem s) a

/-- Settles O45: after the store the cell holds the accumulator, a word in [0, 999], so a step that fetches this cell
runs what the accumulator decodes to. -/
theorem storeIsSeenByTheNextFetch : Obligations.StoreIsSeenByTheNextFetch := by
  intro n s hn hinv hr hw
  obtain ⟨hwf, hacc, hpc, _⟩ := hinv
  have hread : memRead (n : Int) (memWrite (n : Int) (s.acc : Int) (advancePc s)) = s.acc :=
    Int.ofNat_inj.1 (memRead_memWrite_same (by simpa using hwf) (by omega) (by omega) (by omega) (by simpa using hacc))
  have hdecode := decode_eq hacc
  refine ⟨_, _, step_of_store hn hr hw, hread, by simp, ?_, hdecode, fun hfetch => ?_⟩
  · rw [memWrite_pc, advancePc_pc hpc]
  · exact step_of_decode (by simpa using hr) (by rw [hfetch, hread, hdecode])

/-- Settles O2. -/
theorem memoryReadIsGuarded : Obligations.MemoryReadIsGuarded := fun a s =>
  ⟨fun ha0 ha1 => memRead_of_inRange ha0 (by omega), fun h => memRead_out a s (by omega)⟩

end Sys2Proof.Machine

/-! ## 30_encoding.md: the codec -/

namespace Sys2Proof

/-! ### The ten rows that the decoder answers, and their words (30_encoding.md R37, R39, R41) -/

theorem instrOf_isPseudo (k n : Nat) : (instrOf k n).isPseudo = false := by
  match k with
  | 0 | 1 | 2 | 3 | 4 | 5 | 6 | 7 | 8 => rfl
  | _ + 9 => rfl

theorem instrOf_wellFormed (k n : Nat) : (instrOf k n).wellFormed = operandFits n := by
  match k with
  | 0 | 1 | 2 | 3 | 4 | 5 | 6 | 7 | 8 => rfl
  | _ + 9 => rfl

/-- The bound is needed: every opcode from 9 on selects the reserved row, whose word has the digit 9. -/
theorem encode_instrOf {k : Nat} (hk : k ≤ 9) (n : Nat) : encode (instrOf k n) = packWord k n := by
  match k with
  | 0 | 1 | 2 | 3 | 4 | 5 | 6 | 7 | 8 | 9 => rfl
  | _ + 10 => omega

/-- An executable instruction is the row of its opcode. -/
theorem exists_eq_instrOf {i : Instr} (h : i.isPseudo = false) : ∃ k n, k ≤ 9 ∧ i = instrOf k n := by
  cases i with
  | hlt n => exact ⟨0, n, by decide, rfl⟩
  | add n => exact ⟨1, n, by decide, rfl⟩
  | sub n => exact ⟨2, n, by decide, rfl⟩
  | sta n => exact ⟨3, n, by decide, rfl⟩
  | lda n => exact ⟨4, n, by decide, rfl⟩
  | bra n => exact ⟨5, n, by decide, rfl⟩
  | brz n => exact ⟨6, n, by decide, rfl⟩
  | inp n => exact ⟨7, n, by decide, rfl⟩
  | out n => exact ⟨8, n, by decide, rfl⟩
  | reserved9 n => exact ⟨9, n, by decide, rfl⟩
  | dat v => cases h

/-- Splitting undoes packing when the operand fits its two digits (30_encoding.md R37, R38). -/
theorem splitWord_packWord {n : Nat} (k : Nat) (hn : n < 100) : splitWord (packWord k n) = (k, n) := by
  simp only [splitWord_eq, packWord_eq, Prod.mk.injEq]
  omega

theorem decode_packWord {k n : Nat} (hk : k ≤ 9) (hn : n < 100) : decode (packWord k n) = .ok (instrOf k n) := by
  have hw : packWord k n ≤ Config.wordMax := Laws.EncodeFits.packWord_fits hk ((operandFits_iff n).2 hn)
  rw [decode, if_pos hw, splitWord_packWord k hn]

theorem decode_eq_ok_iff {w : Nat} {i : Instr} : decode w = .ok i ↔ w ≤ 999 ∧ instrOf (w / 100) (w % 100) = i := by
  by_cases hw : w ≤ 999
  · simp [decode_eq hw, hw]
  · simp [decode, hw]

/-! ### The nine mnemonics (30_encoding.md R39, R44) -/

theorem exists_mem_opcodeMap {k : Nat} (hk : k ≤ 8) : ∃ m, (m, k) ∈ opcodeMap := by
  have hall : ∀ j < 9, j ∈ opcodeMap.map Prod.snd := by decide
  obtain ⟨⟨m, _⟩, hmem, rfl⟩ := List.mem_map.1 (hall k (by omega))
  exact ⟨m, hmem⟩

section
variable {m : Text} {k : Nat} (h : (m, k) ∈ opcodeMap)
include h

theorem opcode_le_of_mem : k ≤ 8 :=
  (by decide : ∀ row ∈ opcodeMap, row.2 ≤ 8) _ h

theorem mnemonicOf_of_mem : mnemonicOf k = some m :=
  (by decide : ∀ row ∈ opcodeMap, mnemonicOf row.2 = some row.1) _ h

theorem lookup_of_mem : opcodeMap.lookup m = some k :=
  (by decide : ∀ row ∈ opcodeMap, opcodeMap.lookup row.1 = some row.2) _ h

theorem encodeMnemonic_of_mem (n : Nat) : encodeMnemonic m n = .ok (packWord k n) := by
  rw [encodeMnemonic, lookup_of_mem h]

theorem mem_reservedWords_of_mem : m ∈ reservedWords :=
  List.mem_append_left _ (List.mem_map_of_mem (f := Prod.fst) h)

/-- The text of a word is its mnemonic with its operand, where a halt counts as having operand 0 (30_encoding.md R47). -/
theorem textOf_of_mem (n : Nat) : textOf k n = .ok (instructionText m (if k = 0 then 0 else n)) := by
  rw [textOf_some n (mnemonicOf_of_mem h), instructionText]
  by_cases hk : k = 0 <;> simp [hk]

end

theorem mnemonicOf_eq_none {k : Nat} (hk : 9 ≤ k) : mnemonicOf k = none := by
  have hnone : opcodeMap.find? (fun row => row.2 == k) = none := by
    refine List.find?_eq_none.2 fun ⟨_, _⟩ hrow heq => ?_
    have hle := opcode_le_of_mem hrow
    have hk' := beq_iff_eq.1 heq
    omega
  rw [mnemonicOf, hnone]
  rfl

/-! ### Decimal numerals (30_encoding.md R47) -/

namespace Asm

theorem isDigit_eq (c : Char) : isDigit c = c.isDigit := by
  simp only [isDigit, Char.isDigit, Char.toNat, ge_iff_le, UInt32.le_iff_toNat_le]
  rfl

theorem isDigit_of_mem_decimal {c : Char} {n : Nat} (h : c ∈ decimal n) : isDigit c = true :=
  isDigit_eq c ▸ Nat.isDigit_of_mem_toDigits (by decide) (by decide) h

theorem isSpace_of_isDigit {c : Char} (h : isDigit c = true) : isSpace c = false := by
  refine Bool.eq_false_iff.2 fun hs => ?_
  have hcases : (c = ' ' ∨ c = '\t') ∨ c = '\r' := by simpa only [isSpace, Bool.or_eq_true, beq_iff_eq] using hs
  rcases hcases with (rfl | rfl) | rfl <;> revert h <;> decide

theorem decimal_ne_nil (n : Nat) : decimal n ≠ [] := Nat.toDigits_ne_nil

theorem isNumeral_decimal (n : Nat) : isNumeral (decimal n) = true := by
  have hdigits : (decimal n).all isDigit = true := List.all_eq_true.2 fun _ => isDigit_of_mem_decimal
  simp [isNumeral, hdigits, decimal_ne_nil]

theorem numeralValue_decimal (n : Nat) : numeralValue (decimal n) = n := ofDigitChars_decimal n

/-- The leading digit is that of `n / 10 / … / 10`, which is 0 for 0 alone. -/
theorem decimal_no_leading_zero {n : Nat} (hn : n ≠ 0) : (decimal n).head? ≠ some '0' := by
  induction n using Nat.strongRecOn with
  | ind n ih =>
    rw [decimal_step]
    split
    · simpa using hn
    · have hlead := ih (n / 10) (by omega) (by omega)
      rwa [List.head?_append_of_ne_nil _ (decimal_ne_nil _)]

/-! ### Reading a text back (30_encoding.md R49) -/

theorem reservedWord_ne_nil : ∀ m ∈ reservedWords, m ≠ [] := by decide

theorem reservedWord_no_space : ∀ m ∈ reservedWords, ∀ c ∈ m, isSpace c = false := by
  have hall : reservedWords.flatten.all (fun c => !isSpace c) = true := by rfl
  intro m hm c hc
  simpa using List.all_eq_true.1 hall c (List.mem_flatten_of_mem hm hc)

/-- A mnemonic with its operand reads back as the mnemonic encoder's word: an omitted operand is the operand 0. -/
theorem encodeText_instructionText {m : Text} (hm : m ∈ reservedWords) (n : Nat) :
    encodeText (instructionText m n) = encodeMnemonic m n := by
  have hne := reservedWord_ne_nil m hm
  have hns := reservedWord_no_space m hm
  rw [instructionText]
  split
  case isTrue h0 => rw [encodeText, tokens_word hne hns, h0]
  case isFalse =>
    have hoperand : tokens (decimal n) = [decimal n] :=
      tokens_word (decimal_ne_nil n) fun _ hc => isSpace_of_isDigit (isDigit_of_mem_decimal hc)
    have htokens : tokens (m ++ ' ' :: decimal n) = [m, decimal n] := by
      rw [tokens_append _ (by decide) hne hns, hoperand]
    simp only [encodeText, htokens, isNumeral_decimal, numeralValue_decimal, if_true]

/-- A word with a text reads back as itself, except that a halt loses its operand (90_conflicts.md C3). -/
theorem exists_toText_encodeText {w : Nat} (hw : w ≤ 899) :
    ∃ t, toText w = .ok t ∧ encodeText t = .ok (if w < 100 then 0 else w) := by
  obtain ⟨m, hm⟩ := exists_mem_opcodeMap (show w / 100 ≤ 8 by omega)
  refine ⟨_, textOf_of_mem hm (w % 100), ?_⟩
  rw [encodeText_instructionText (mem_reservedWords_of_mem hm), encodeMnemonic_of_mem hm, packWord_eq]
  congr 1
  split <;> split <;> omega

end Asm

/-! ### A DAT's cell (30_encoding.md R41) -/

namespace Machine

theorem exists_exec_instrOf_eq_next (k n : Nat) (s : State) : ∃ t, exec (instrOf k n) s = .next t := by
  match k with
  | 0 | 1 | 2 | 3 | 4 | 5 | 6 | 7 | 8 => exact ⟨_, rfl⟩
  | _ + 9 => exact ⟨_, rfl⟩

theorem datCell_of_le {v : Nat} (hv : v ≤ 999) : datCell v = v := if_pos hv

theorem datCell_of_gt {v : Nat} (hv : 999 < v) : datCell v = 0 := if_neg (Nat.not_le.2 hv)

end Machine

/-! ### The statements -/

open Machine Asm

/-- Settles O9: an executable instruction is the row of its opcode, and its word splits into opcode and operand. -/
theorem decodeOfEncodeIsTheInstruction : Obligations.DecodeOfEncodeIsTheInstruction := by
  intro i hwf hexec
  obtain ⟨k, n, hk, rfl⟩ := exists_eq_instrOf hexec
  rw [instrOf_wellFormed, operandFits_iff] at hwf
  rw [encode_instrOf hk, decode_packWord hk hwf]

/-- Settles O10: packing the two halves of a word in [0, 999] gives the word again. -/
theorem encodeOfDecodeIsTheWord : Obligations.EncodeOfDecodeIsTheWord := by
  intro w i h
  obtain ⟨hw, rfl⟩ := decode_eq_ok_iff.1 h
  refine ⟨?_, ?_, instrOf_isPseudo _ _⟩
  · rw [encode_instrOf (by omega), packWord_eq, Nat.div_add_mod']
  · rw [instrOf_wellFormed, operandFits_iff]
    exact Nat.mod_lt w (by decide)

/-- Settles O12. -/
theorem toTextOmitsOperandOfHaltAndZero : Obligations.ToTextOmitsOperandOfHaltAndZero := by
  refine ⟨fun w hw => ?_, fun n => ?_, by decide, by decide, by decide, by decide⟩
  · obtain ⟨m, hm⟩ := exists_mem_opcodeMap (show w / 100 ≤ 8 by omega)
    exact ⟨m, mnemonicOf_of_mem hm, textOf_some _ (mnemonicOf_of_mem hm)⟩
  · exact ⟨isNumeral_decimal n, numeralValue_decimal n, decimal_no_leading_zero, fun h => h ▸ rfl⟩

/-- Settles O14: from opcode 1 on the text carries the whole word, and below 100 it is the bare HLT. -/
theorem textRoundTrip : Obligations.TextRoundTrip := by
  refine ⟨fun w hw => ?_, fun w _ hw => ?_, fun m k n hm hn => ?_⟩
  · obtain ⟨t, ht, he⟩ := exists_toText_encodeText (show w ≤ 899 by omega)
    have hback : (if w < 100 then 0 else w) = w := by split <;> omega
    exact ⟨t, ht, hback ▸ he⟩
  · obtain ⟨t, ht, he⟩ := exists_toText_encodeText (show w ≤ 899 by omega)
    exact ⟨t, ht, by rwa [if_pos (by omega)] at he⟩
  · have hk := opcode_le_of_mem hm
    refine ⟨_, encodeMnemonic_of_mem hm n, ?_, splitWord_packWord k (by omega)⟩
    rw [packWord_eq]
    omega

/-- Settles O38: a value up to 999 is the cell's word, which decodes to an executable row; a larger one leaves the cell at
0, the word of a HLT. -/
theorem datCellExecutesAsItsWord : Obligations.DatCellExecutesAsItsWord := by
  intro v s
  constructor
  · intro hv
    obtain ⟨t, ht⟩ := exists_exec_instrOf_eq_next (v / 100) (v % 100) s
    have hdat : exec (.dat v) s = exec (instrOf (v / 100) (v % 100)) s := by rw [exec_dat, datCell_of_le hv]
    exact ⟨_, t, decode_eq hv, instrOf_isPseudo _ _, hdat, hdat.trans ht⟩
  · intro hv
    rw [exec_dat, datCell_of_gt hv]
    rfl

/-- Settles O8. -/
theorem decoderFollowsOpcodeMap : Obligations.DecoderFollowsOpcodeMap := by
  intro n hn
  have hrow (k : Nat) (hk : k ≤ 9) : decode (k * 100 + n) = .ok (instrOf k n) := decode_packWord hk (by omega)
  refine ⟨?_, hrow 1 (by decide), hrow 2 (by decide), hrow 3 (by decide), hrow 4 (by decide), hrow 5 (by decide),
    hrow 6 (by decide), hrow 7 (by decide), hrow 8 (by decide), hrow 9 (by decide), rfl, rfl, rfl, rfl, rfl, rfl, rfl,
    rfl, rfl, fun _ => mnemonicOf_eq_none⟩
  simpa [instrOf] using hrow 0 (by decide)

/-- Settles O16: closed words, evaluated by the decoder. -/
theorem handWrittenWordsDecode : Obligations.HandWrittenWordsDecode := by
  unfold Obligations.HandWrittenWordsDecode
  decide

end Sys2Proof

/-! ## 40_step_cycle.md: the step and the run -/

namespace Sys2Proof.Machine

/-! ### The execute phase, row by row (40_step_cycle.md R55, R58) -/

section
variable {n k : Nat} {s t : State}

/-- An empty queue yields 0 and stays empty (44_io.md R72). -/
theorem takeInput_of_nil (h : s.inq = []) : takeInput s = (0, s) := by
  rcases takeInput_cases s with ⟨_, he⟩ | ⟨v, rest, hq, _⟩
  · exact he
  · exact absurd (h.symm.trans hq) (List.cons_ne_nil v rest).symm

theorem takeInput_of_cons {v : Int} {rest : List Int} (h : s.inq = v :: rest) :
    takeInput s = (v, { s with inq := rest }) := by
  rw [takeInput, h]

/-- Every opcode but 0 to 8 selects the row of the no-operation (30_encoding.md R42). -/
theorem instrOf_of_nine_le (hk : 9 ≤ k) : instrOf k n = .reserved9 n := by
  obtain ⟨j, rfl⟩ := Nat.exists_eq_add_of_le' hk
  rfl

/-- A DAT runs as the word in its cell, so it too answers what one of the rows answers. -/
theorem exists_exec_eq_next (i : Instr) (s : State) : ∃ t, exec i s = .next t := by
  cases i with
  | dat v =>
    rw [exec_dat]
    exact exists_exec_instrOf_eq_next _ _ s
  | _ => exact ⟨_, rfl⟩

/-- Only a taken branch writes the program counter in the execute phase (43_control.md R71). -/
theorem ExecEffect.pc_eq (h : ExecEffect n s k t) :
    t.pc = if k = 5 ∨ k = 6 ∧ s.acc = 0 then (pcWrite (n : Int) s).pc else s.pc := by
  cases h with
  | brzTaken h0 | brzNotTaken h0 => simp [h0]
  | _ => simp

/-! ### The step (40_step_cycle.md R53, R54) -/

theorem advancePc_of_lt (h : s.pc < 99) : advancePc s = { s with pc := s.pc + 1 } := by
  rw [advancePc_eq, if_pos h]

/-- At the last cell the increment is dropped. -/
theorem advancePc_of_last (h : 99 ≤ s.pc) : advancePc s = s := by
  rw [advancePc_eq, if_neg (Nat.not_lt.2 h)]

/-- A step at the last cell executes its word on the very state it started from (40_step_cycle.md R54). -/
theorem step_next_effect_of_last (hpc : s.pc = 99) (h : step s = .next t) :
    s.running = true ∧ ExecEffect (memRead 99 s % 100) s (memRead 99 s / 100) t := by
  obtain ⟨hr, _, he⟩ := step_next_effect h
  rw [hpc, advancePc_of_last (Nat.le_of_eq hpc.symm)] at he
  exact ⟨hr, he⟩

/-- The invariant keeps every fetched word in the decoder's domain, and every row answers a next state. -/
theorem exists_step_eq_next (h : s.Inv) (hr : s.running = true) : ∃ t, step s = .next t := by
  obtain ⟨hwf, _⟩ := h
  rw [step_eq hr (memRead_le hwf _)]
  exact exists_exec_eq_next _ _

/-- A step that ends in state halted executed a HLT, and besides the increment it cleared the run flag only. -/
theorem step_halts (h : step s = .next t) (ht : t.running = false) :
    memRead (s.pc : Int) s < 100 ∧ t = clearRunning (advancePc s) := by
  obtain ⟨hr, _, he⟩ := step_next_effect h
  have hopcode : memRead (s.pc : Int) s / 100 = 0 := by
    by_contra hne
    rw [he.running_eq, if_neg hne, advancePc_running, hr] at ht
    cases ht
  rw [hopcode] at he
  cases he
  exact ⟨by omega, rfl⟩

/-! ### The run (40_step_cycle.md R56) -/

/-- The first turn of a run that answers a state is a step. -/
theorem runFor_succ_next {fuel : Nat} (hr : s.running = true) (h : runFor (fuel + 1) s = .next t) :
    ∃ u, step s = .next u ∧ runFor fuel u = .next t := by
  rw [runFor, if_pos hr] at h
  split at h
  · exact ⟨_, ‹_›, h⟩
  · cases h
  · cases h

theorem runFor_add {j k : Nat} (h : runFor j s = .next t) : runFor (j + k) s = runFor k t := by
  induction j generalizing s with
  | zero =>
    cases h
    rw [Nat.zero_add]
  | succ j ih =>
    cases hr : s.running with
    | false =>
      rw [runFor_halted _ hr] at h
      cases h
      rw [runFor_halted _ hr, runFor_halted _ hr]
    | true =>
      obtain ⟨u, hs, hu⟩ := runFor_succ_next hr h
      rw [Nat.succ_add, runFor_succ _ hr hs, ih hu]

theorem runFor_one (hr : s.running = true) : runFor 1 s = step s := by
  rw [runFor, if_pos hr]
  cases step s <;> rfl

/-- The step that ended a run, with the last running state it was taken from. -/
theorem exists_halting_step {fuel : Nat} (hr : s.running = true) (h : runFor fuel s = .next t)
    (ht : t.running = false) :
    ∃ k u, k < fuel ∧ runFor k s = .next u ∧ u.running = true ∧ step u = .next t := by
  induction fuel generalizing s with
  | zero =>
    cases h
    exact absurd (hr.symm.trans ht) Bool.noConfusion
  | succ fuel ih =>
    obtain ⟨s', hs, hrun⟩ := runFor_succ_next hr h
    cases hr' : s'.running with
    | false =>
      rw [runFor_halted _ hr'] at hrun
      cases hrun
      exact ⟨0, s, fuel.succ_pos, rfl, hr, hs⟩
    | true =>
      obtain ⟨k, u, hk, hu, hur, hlast⟩ := ih hr' hrun
      exact ⟨k + 1, u, Nat.succ_lt_succ hk, (runFor_succ k hr hs).trans hu, hur, hlast⟩

end

/-! ### The statements -/

/-- Settles O18: at 99 the increment is dropped, so only a taken branch moves the counter, and only opcode 0 clears the
run flag. -/
theorem incrementIsDroppedAtTheLastCell : Obligations.IncrementIsDroppedAtTheLastCell := by
  refine ⟨fun s hpc => advancePc_of_lt (by omega), fun s hpc => advancePc_of_last (by omega), ?_, ?_⟩
  · intro s t _ hpc hw hbra hbrz hs
    obtain ⟨hr, he⟩ := step_next_effect_of_last hpc hs
    exact ⟨by rw [he.pc_eq, if_neg (not_or.2 ⟨hbra, hbrz⟩), hpc], by rw [he.running_eq, if_neg (by omega), hr]⟩
  · intro s t hpc hw hs
    obtain ⟨_, he⟩ := step_next_effect_of_last hpc hs
    have hopcode : memRead 99 s / 100 = 0 := by omega
    exact ⟨by simpa [hopcode, hpc] using he.pc_eq, by simpa [hopcode] using he.running_eq⟩

/-- Settles O21. -/
theorem noStepFails : Obligations.NoStepFails := ⟨exists_exec_eq_next, fun _ => exists_step_eq_next⟩

/-- Settles O22. -/
theorem runIsRepeatedStep : Obligations.RunIsRepeatedStep := ⟨fun _ _ _ _ => runFor_add, fun _ => runFor_one⟩

/-- Settles O23: the step that ended the run executed a HLT after the increment. -/
theorem runEndsOnlyByHalt : Obligations.RunEndsOnlyByHalt := by
  intro fuel s t hr h ht
  obtain ⟨k, u, hk, hu, hur, hlast⟩ := exists_halting_step hr h ht
  obtain ⟨hw, rfl⟩ := step_halts hlast ht
  refine ⟨k, u, hk, hu, hur, hw, ?_⟩
  rw [advancePc_eq]
  split <;> rfl

/-- Settles O17: a step answers a function's one value, and under the invariant that value is a next state. -/
theorem stepRunsTheDecodedInstruction : Obligations.StepRunsTheDecodedInstruction := by
  refine ⟨fun s i => step_of_decode, fun s hinv hr => ?_⟩
  obtain ⟨t, ht⟩ := exists_step_eq_next hinv hr
  refine ⟨t, ht, fun u hu => ?_⟩
  rw [ht] at hu
  cases hu
  rfl

/-- Settles O19: each row by its own law; the two INP clauses are the two ends of `takeInput`. -/
theorem executeFollowsTheOpcodeList : Obligations.ExecuteFollowsTheOpcodeList := by
  refine fun n s => ⟨exec_hlt n s, exec_add n s, exec_sub n s, exec_sta n s, exec_lda n s, exec_bra n s, exec_brz n s,
    fun hq => ?_, fun v rest hq => ?_, exec_out n s, fun k hk => ?_⟩
  · rw [instrOf, exec_inp, takeInput_of_nil hq]
  · rw [instrOf, exec_inp, takeInput_of_cons hq]
  · rw [instrOf_of_nine_le hk, exec_reserved9]

end Sys2Proof.Machine

/-! ## 41_arithmetic.md: ADD and SUB -/

namespace Sys2Proof.Machine

/-! ### A mnemonic's word, and reads after an accumulator write -/

/-- A mnemonic's word is its opcode digit and its operand, and it decodes to the row of that opcode (30_encoding.md R39,
R44). -/
theorem decode_and_encodeMnemonic_of_mem {m : Text} {k n : Nat} (h : (m, k) ∈ opcodeMap) (hn : n ≤ 99) :
    decode (k * 100 + n) = .ok (instrOf k n) ∧ encodeMnemonic m n = .ok (k * 100 + n) :=
  ⟨decode_packWord ((opcode_le_of_mem h).trans (by decide)) (Nat.lt_succ_of_le hn), encodeMnemonic_of_mem h n⟩

section
variable {n : Nat} {s t : State}

theorem memRead_accWrite (a v : Int) : memRead a (accWrite v s) = memRead a s :=
  memRead_congr (accWrite_mem s v) a

/-! ### The exact result, stored or dropped (41_arithmetic.md R61, R62) -/

/-- A sum of naturals is never below the accumulator's range, so the guard is its upper end alone. -/
theorem exec_add_eq (n : Nat) (s : State) : exec (.add n) s =
    .next (if s.acc + memRead (n : Int) s ≤ 999 then { s with acc := s.acc + memRead (n : Int) s } else s) := by
  rw [exec_add]
  split
  · rw [accWrite_of_inRange (by omega) (by omega)]
    rfl
  · rw [accWrite_of_outOfRange (by omega)]

/-- A difference is at most the accumulator, so from a state in range the guard is its lower end alone. -/
theorem exec_sub_eq (hacc : s.acc ≤ 999) : exec (.sub n) s =
    .next (if memRead (n : Int) s ≤ s.acc then { s with acc := s.acc - memRead (n : Int) s } else s) := by
  rw [exec_sub]
  split
  · rw [accWrite_of_inRange (by omega) (by omega), Int.toNat_sub]
  · rw [accWrite_of_outOfRange (by omega)]

/-! ### What a program can rely on (41_arithmetic.md R63) -/

theorem exists_exec_add_ge (hacc : s.acc ≤ 999) : ∃ t, exec (.add n) s = .next t ∧ s.acc ≤ t.acc ∧ t.acc ≤ 999 := by
  refine ⟨_, exec_add_eq n s, ?_⟩
  split
  · exact ⟨Nat.le_add_right _ _, ‹_›⟩
  · exact ⟨le_rfl, hacc⟩

/-- A dropped difference leaves an accumulator below the cell, which is 0 only if it was. -/
theorem exists_exec_sub_le (hacc : s.acc ≤ 999) : ∃ t, exec (.sub n) s = .next t ∧ t.acc ≤ s.acc ∧
    (t.acc = 0 ↔ s.acc = memRead (n : Int) s ∨ s.acc = 0) := by
  refine ⟨_, exec_sub_eq hacc, ?_⟩
  split
  · exact ⟨Nat.sub_le _ _, by dsimp only; omega⟩
  · exact ⟨le_rfl, by omega⟩

/-- A performed ADD leaves the cell as it was, and the sum is at least the cell, so the SUB is performed too. -/
theorem exec_sub_after_add (hsum : s.acc + memRead (n : Int) s ≤ 999) :
    ∃ t, exec (.add n) s = .next t ∧ exec (.sub n) t = .next s := by
  refine ⟨{ s with acc := s.acc + memRead (n : Int) s }, by rw [exec_add_eq, if_pos hsum], ?_⟩
  have hcell : memRead (n : Int) { s with acc := s.acc + memRead (n : Int) s } = memRead (n : Int) s :=
    memRead_congr rfl _
  rw [exec_sub_eq hsum, hcell, if_pos (Nat.le_add_left _ _), Nat.add_sub_cancel]

/-! ### The three instructions that write the accumulator from a cell -/

/-- ADD, SUB and LDA are one guarded accumulator write each. -/
theorem exists_eq_accWrite {i : Instr} (hi : i = .add n ∨ i = .sub n ∨ i = .lda n) (h : exec i s = .next t) :
    ∃ v, t = accWrite v s := by
  rcases hi with rfl | rfl | rfl <;> exact ⟨_, (Host.Outcome.next.inj h).symm⟩

end

/-! ### The statements -/

/-- Settles O26: the invariant bounds the accumulator, so a difference that is not negative fits. -/
theorem subStoresExactDifferenceOrKeeps : Obligations.SubStoresExactDifferenceOrKeeps := by
  intro n hn
  obtain ⟨hdecode, hencode⟩ := decode_and_encodeMnemonic_of_mem (m := "SUB".toList) (k := 2) (by decide) hn
  exact ⟨hdecode, hencode, fun s ⟨_, hacc, _⟩ => exec_sub_eq hacc⟩

/-- Settles O27. -/
theorem arithmeticConsequences : Obligations.ArithmeticConsequences :=
  fun _ _ _ ⟨_, hacc, _⟩ => ⟨exists_exec_add_ge hacc, exists_exec_sub_le hacc, exec_sub_after_add⟩

/-- Settles O25. No bound on the accumulator is needed: a sum is never below its range. -/
theorem addStoresExactSumOrKeeps : Obligations.AddStoresExactSumOrKeeps := by
  intro n hn
  obtain ⟨hdecode, hencode⟩ := decode_and_encodeMnemonic_of_mem (m := "ADD".toList) (k := 1) (by decide) hn
  exact ⟨hdecode, hencode, exec_add_eq n⟩

/-- Settles O39: a guarded accumulator write, performed or dropped, leaves every other field and every read. -/
theorem accumulatorInstructionsFrame : Obligations.AccumulatorInstructionsFrame := by
  intro n i s t hi h
  obtain ⟨v, rfl⟩ := exists_eq_accWrite hi h
  exact ⟨accWrite_pc s v, accWrite_inq s v, accWrite_outq s v, accWrite_running s v, fun a => memRead_accWrite a v⟩

end Sys2Proof.Machine

/-! ## 42_load_store.md: STA and LDA, and the frame of a store -/

namespace Sys2Proof.Machine

section
variable {n k v : Nat} {s t : State}

/-! ### The two copies, from a state in range (42_load_store.md R64, R65) -/

/-- The accumulator fits a cell, so the store is never dropped. -/
theorem memRead_memWrite_acc (h : s.Inv) (hn : n ≤ 99) :
    memRead (n : Int) (memWrite (n : Int) (s.acc : Int) s) = s.acc := by
  obtain ⟨hwf, hacc, _⟩ := h
  exact Int.ofNat_inj.1 (memRead_memWrite_same hwf (by omega) (by omega) (by omega) (Int.ofNat_le.2 hacc))

/-- A cell fits the accumulator, so the load is never dropped. -/
theorem exec_lda_eq (h : s.Inv) (n : Nat) : exec (.lda n) s = .next { s with acc := memRead (n : Int) s } := by
  obtain ⟨hwf, _⟩ := h
  rw [exec_lda, accWrite_of_inRange (by omega) (Int.ofNat_le.2 (memRead_le hwf _)), Int.toNat_natCast]

/-! ### What DAT does, as the word of its cell (45_assembler.md R87) -/

/-- Only ADD, SUB, LDA and INP write the accumulator (40_step_cycle.md R55). -/
theorem ExecEffect.acc_eq (h : ExecEffect n s k t) (hk : k ∉ [1, 2, 4, 7]) : t.acc = s.acc := by
  cases h with
  | add | sub | lda | inp => exact absurd (by decide) hk
  | _ => simp

theorem exec_dat_effect (hv : v ≤ 999) (h : exec (.dat v) s = .next t) : ExecEffect (v % 100) s (v / 100) t := by
  rw [exec_dat, datCell_of_le hv] at h
  exact exec_instrOf_iff.1 h

/-- The cell of a value above 999 keeps the reset value 0, the word of a HLT (log entry 7). -/
theorem exec_dat_of_gt (hv : 999 < v) : exec (.dat v) s = .next (clearRunning s) := by
  rw [exec_dat, datCell_of_gt hv]
  rfl

end

/-! ### The statements -/

/-- Settles O28. The invariant is needed for what the cell reads as; every store keeps the other cells and fields. -/
theorem staCopiesAccumulatorToCell : Obligations.StaCopiesAccumulatorToCell := by
  intro n hn
  obtain ⟨hdecode, hencode⟩ := decode_and_encodeMnemonic_of_mem (m := "STA".toList) (k := 3) (by decide) hn
  exact ⟨hdecode, hencode, fun s hinv =>
    ⟨_, exec_sta n s, memRead_memWrite_acc hinv hn, fun _ => memRead_memWrite_ne, memWrite_eq_with_mem _ _ s⟩⟩

/-- Settles O40: STA is one guarded memory write; a DAT up to 999 does what the row of its word does, field by field; a
larger one is a HLT, which writes the run flag alone. -/
theorem storeFrame : Obligations.StoreFrame := by
  refine ⟨fun n s t h => ?_, fun v s t h => ?_⟩
  · rw [exec_sta] at h
    cases h
    exact ⟨memWrite_acc .., memWrite_pc .., memWrite_inq .., memWrite_outq .., memWrite_running ..,
      fun _ => memRead_memWrite_ne⟩
  · rcases Nat.lt_or_ge 999 v with hbig | hv
    · rw [exec_dat_of_gt hbig] at h
      cases h
      exact ⟨fun _ => memRead_congr (clearRunning_mem s), fun _ b _ => memRead_congr (clearRunning_mem s) b,
        fun _ => clearRunning_acc s, fun _ => clearRunning_pc s, fun _ => clearRunning_inq s,
        fun _ => clearRunning_outq s, fun _ hle => absurd hle (Nat.not_le.2 hbig)⟩
    · have he := exec_dat_effect hv h
      refine ⟨fun hk _ => he.memRead_eq fun h3 => absurd h3 hk, fun _ _ hb => he.memRead_eq fun _ => hb, he.acc_eq,
        fun hk => ?_, fun hk => ?_, fun hk => ?_, fun hlo _ => ?_⟩
      · simp only [List.mem_cons, List.not_mem_nil, or_false, not_or] at hk
        rw [he.pc_eq, if_neg (by omega)]
      · rw [he.inq_eq, if_neg hk]
      · rw [he.outq_eq, if_neg hk]
      · rw [he.running_eq, if_neg (by omega)]

/-- Settles O29. -/
theorem ldaCopiesCellToAccumulator : Obligations.LdaCopiesCellToAccumulator := by
  intro n hn
  obtain ⟨hdecode, hencode⟩ := decode_and_encodeMnemonic_of_mem (m := "LDA".toList) (k := 4) (by decide) hn
  exact ⟨hdecode, hencode, fun s hinv => exec_lda_eq hinv n⟩

end Sys2Proof.Machine

/-! ## 43_control.md: HLT, the branches and the reserved opcode -/

namespace Sys2Proof.Machine

section
variable {n k : Nat} {s t : State}

/-! ### The program counter after a branch and after the increment (43_control.md R68, R69) -/

/-- An operand of two digits is a cell's address, so a taken branch is never dropped. -/
theorem pcWrite_operand (hn : n ≤ 99) (s : State) : pcWrite (n : Int) s = { s with pc := n } :=
  pcWrite_of_inRange (by omega) (by omega)

/-- A taken branch overwrites the increment, which is never seen (43_control.md R68). -/
theorem pcWrite_operand_advancePc (hn : n ≤ 99) (s : State) : pcWrite (n : Int) (advancePc s) = { s with pc := n } := by
  rw [pcWrite_operand hn, advancePc_eq]
  split <;> rfl

/-- The increment from a program counter in range, as the spec's case on the last cell (40_step_cycle.md R54). -/
theorem advancePc_of_inRange (hpc : s.pc < 100) : advancePc s = if s.pc = 99 then s else { s with pc := s.pc + 1 } := by
  split
  · exact advancePc_of_last (by omega)
  · exact advancePc_of_lt (by omega)

theorem exec_bra_eq (hn : n ≤ 99) (s : State) : exec (.bra n) s = .next { s with pc := n } := by
  rw [exec_bra, pcWrite_operand hn]

theorem exec_brz_eq (hn : n ≤ 99) (s : State) : exec (.brz n) s = .next (if s.acc = 0 then { s with pc := n } else s) := by
  rw [exec_brz, pcWrite_operand hn]

/-! ### The whole step on a control word (40_step_cycle.md R53) -/

/-- A step that fetches the word of an opcode and an operand executes their row. -/
theorem step_of_word (hk : k ≤ 9) (hn : n ≤ 99) (hr : s.running = true) (hw : memRead (s.pc : Int) s = k * 100 + n) :
    step s = exec (instrOf k n) (advancePc s) :=
  step_of_decode hr (hw ▸ decode_packWord hk (Nat.lt_succ_of_le hn))

theorem decode_eq_hlt (hn : n ≤ 99) : decode n = .ok (.hlt n) := by
  have hlt : n < 100 := Nat.lt_succ_of_le hn
  rw [decode_eq (by omega), Nat.div_eq_of_lt hlt, Nat.mod_eq_of_lt hlt, instrOf]

theorem step_of_hlt (hr : s.running = true) (hw : memRead (s.pc : Int) s ≤ 99) :
    step s = .next { advancePc s with running := false } :=
  step_of_decode hr (decode_eq_hlt hw)

theorem step_of_bra (hn : n ≤ 99) (hr : s.running = true) (hw : memRead (s.pc : Int) s = 500 + n) :
    step s = .next { s with pc := n } := by
  rw [step_of_word (k := 5) (by decide) hn hr hw, instrOf, exec_bra, pcWrite_operand_advancePc hn]

/-- The increment leaves the accumulator alone, so BRZ tests the value before the step. -/
theorem step_of_brz (hn : n ≤ 99) (hr : s.running = true) (hw : memRead (s.pc : Int) s = 600 + n) :
    step s = .next (if s.acc = 0 then { s with pc := n } else advancePc s) := by
  rw [step_of_word (k := 6) (by decide) hn hr hw, instrOf, exec_brz, pcWrite_operand_advancePc hn, advancePc_acc]

theorem step_of_reserved9 (hn : n ≤ 99) (hr : s.running = true) (hw : memRead (s.pc : Int) s = 900 + n) :
    step s = .next (advancePc s) :=
  step_of_word (k := 9) (by decide) hn hr hw

theorem step_ne_next_of_halted (hr : s.running = false) : step s ≠ .next t := by
  intro h
  obtain ⟨hrun, _⟩ := step_next h
  exact Bool.false_ne_true (hr.symm.trans hrun)

/-- A running state that a step answers again is answered by every run. -/
theorem runFor_of_step_eq_self (hr : s.running = true) (h : step s = .next s) (fuel : Nat) : runFor fuel s = .next s := by
  induction fuel with
  | zero => rfl
  | succ fuel ih => rw [runFor_succ fuel hr h, ih]

/-! ### The opcodes of the control instructions (30_encoding.md R39) -/

theorem exists_control_opcode {i : Instr} (hi : i = .hlt n ∨ i = .bra n ∨ i = .brz n ∨ i = .reserved9 n) :
    ∃ k, (k = 0 ∨ k = 5 ∨ k = 6 ∨ k = 9) ∧ i = instrOf k n := by
  rcases hi with rfl | rfl | rfl | rfl
  · exact ⟨0, by decide, rfl⟩
  · exact ⟨5, by decide, rfl⟩
  · exact ⟨6, by decide, rfl⟩
  · exact ⟨9, by decide, rfl⟩

end

/-! ### The statements -/

/-- Settles O24: a branch to the program counter's own value answers the state it started from, so every turn of the run
starts from that state again. -/
theorem branchToItselfNeverEnds : Obligations.BranchToItselfNeverEnds :=
  fun _ hr hpc hw => runFor_of_step_eq_self hr (step_of_bra hpc hr hw)

/-- Settles O34: in the execute phase a taken branch alone writes the program counter, and its operand has two digits; every
other step leaves what the increment made. -/
theorem nextFetchAddress : Obligations.NextFetchAddress := by
  intro s t ⟨_, _, hpc, _⟩ hs
  obtain ⟨_, _, he⟩ := step_next_effect hs
  rw [he.pc_eq, advancePc_acc, advancePc_pc hpc, pcWrite_operand_advancePc (by omega)]

/-- Settles O30. -/
theorem hltClearsTheRunFlag : Obligations.HltClearsTheRunFlag := by
  refine ⟨fun n hn => ⟨decode_eq_hlt hn, exec_hlt n⟩, encodeMnemonic_of_mem (k := 0) (by decide) 0,
    fun s hr hw hpc => ?_, fun s hr hw hpc => ?_, fun _ _ => step_ne_next_of_halted⟩
  · rw [step_of_hlt hr hw, advancePc_of_lt (by omega)]
  · rw [step_of_hlt hr hw, advancePc_of_last (by omega)]

/-- Settles O31. -/
theorem braSetsProgramCounter : Obligations.BraSetsProgramCounter := by
  intro n hn
  obtain ⟨hdecode, hencode⟩ := decode_and_encodeMnemonic_of_mem (m := "BRA".toList) (k := 5) (by decide) hn
  exact ⟨hdecode, hencode, exec_bra_eq hn, fun _ => step_of_bra hn⟩

/-- Settles O32: not taken, the step is its increment, which the invariant keeps to the two cases of the last cell. -/
theorem brzBranchesExactlyOnZero : Obligations.BrzBranchesExactlyOnZero := by
  intro n hn
  obtain ⟨hdecode, hencode⟩ := decode_and_encodeMnemonic_of_mem (m := "BRZ".toList) (k := 6) (by decide) hn
  refine ⟨hdecode, hencode, exec_brz_eq hn, fun s ⟨_, _, hpc, _⟩ hr hw => ?_⟩
  rw [step_of_brz hn hr hw, advancePc_of_inRange hpc]

/-- Settles O33: the step on the reserved row is its increment. -/
theorem opcodeNineIsNoOperation : Obligations.OpcodeNineIsNoOperation := by
  refine fun n hn => ⟨decode_packWord (k := 9) (by decide) (by omega), exec_reserved9 n, fun s hr hw hpc => ?_,
    fun s hr hw hpc => ?_⟩
  · rw [step_of_reserved9 hn hr hw, advancePc_of_lt (by omega)]
  · rw [step_of_reserved9 hn hr hw, advancePc_of_last (by omega)]

/-- Settles O41, from the opcodes that write each field: of the four control opcodes only 0 is among them, for the run flag,
and 5 and 6, for the program counter. -/
theorem controlInstructionsFrame : Obligations.ControlInstructionsFrame := by
  intro n i s t hi h
  obtain ⟨k, hk, rfl⟩ := exists_control_opcode hi
  have he := exec_instrOf_iff.1 h
  refine ⟨he.acc_eq ?_, ?_, ?_, fun hne => ?_, fun hrow => ?_, fun a => he.memRead_eq (by omega)⟩
  · simp only [List.mem_cons, List.not_mem_nil, or_false]
    omega
  · rw [he.inq_eq, if_neg (by omega)]
  · rw [he.outq_eq, if_neg (by omega)]
  · have hk0 : k ≠ 0 := fun h0 => hne (congrArg (instrOf · n) h0)
    rw [he.running_eq, if_neg hk0]
  · have hk5 : k ≠ 5 := fun h5 => by simp [h5, instrOf] at hrow
    have hk6 : k ≠ 6 := fun h6 => by simp [h6, instrOf] at hrow
    rw [he.pc_eq, if_neg (by omega)]

end Sys2Proof.Machine

/-! ## 44_io.md: INP and OUT -/

namespace Sys2Proof.Machine

section
variable {n k : Nat} {s t : State}

/-- Neither row of the input and output instructions writes the program counter, the run flag or memory (44_io.md R72,
R73). -/
theorem ExecEffect.io_frame (he : ExecEffect n s k t) (hk : k = 7 ∨ k = 8) :
    t.pc = s.pc ∧ t.running = s.running ∧ ∀ a : Int, memRead a t = memRead a s := by
  refine ⟨?_, ?_, fun a => he.memRead_eq (by omega)⟩
  · rw [he.pc_eq, if_neg (by omega)]
  · rw [he.running_eq, if_neg (by omega)]

end

/-! ### The statements -/

/-- Settles O37: the append has no guard, so it holds of every accumulator. -/
theorem outAppendsAccumulator : Obligations.OutAppendsAccumulator :=
  fun n hn => ⟨decode_packWord (k := 8) (by decide) (by omega), encodeMnemonic_of_mem (k := 8) (by decide) 0, exec_out n⟩

/-- Settles O42: INP and OUT are the rows 7 and 8, and each field but the ones they name is written by other rows alone. -/
theorem inputOutputFrame : Obligations.InputOutputFrame := by
  refine fun n s t => ⟨fun h => ?_, fun h => ?_⟩
  · have he : ExecEffect n s 7 t := exec_instrOf_iff.1 h
    obtain ⟨hpc, hrunning, hmem⟩ := he.io_frame (.inl rfl)
    exact ⟨hpc, he.outq_eq, hrunning, hmem⟩
  · have he : ExecEffect n s 8 t := exec_instrOf_iff.1 h
    obtain ⟨hpc, hrunning, hmem⟩ := he.io_frame (.inr rfl)
    exact ⟨he.acc_eq (by decide), hpc, he.inq_eq, hrunning, hmem⟩

end Sys2Proof.Machine

/-! ## 45_assembler.md: the two lists of an assembly, and the cells they are loaded into -/

namespace Sys2Proof.Asm

section
variable {text : Text} {table : LabelTable} {lines : List Line} {accepted : List Nat} {rejected : List Rejected}

/-! ### The two lists of pass 2 (45_assembler.md R86) -/

theorem assemble_eq_lists_iff : assemble text = .lists accepted rejected ↔
    refusal (programLines text) = none ∧
      acceptedWords (labelTable (programLines text)) (programLines text) = accepted ∧
      rejectedLines (labelTable (programLines text)) (programLines text) = rejected := by
  rw [assemble, assembleLines]
  split <;> simp [*]

theorem rejectedLines_eq_nil_iff : rejectedLines table lines = [] ↔ ∀ l ∈ lines, (encodeLine table l).isSome := by
  simp [rejectedLines, ← Option.isSome_iff_ne_none]

/-- With nothing rejected the accepted list is parallel to the lines. -/
theorem map_some_acceptedWords (h : rejectedLines table lines = []) :
    (acceptedWords table lines).map some = lines.map (encodeLine table) := by
  rw [acceptedWords, List.map_filterMap_some_eq_filter_map_isSome, List.filter_eq_self, List.forall_mem_map]
  exact rejectedLines_eq_nil_iff.1 h

theorem encodeLine_of_bareLabel {l : Line} {name : Text} (h : l.shape = .bareLabel name) : encodeLine table l = none := by
  rw [encodeLine, h]

/-! ### The addresses of the lines (45_assembler.md R83) -/

/-- The first cleaned line has the first address, and only a bare label leaves that address to the next line. -/
theorem exists_numberLines_cons (a : Nat) (l : Text) (ls : List Text) :
    ∃ b, numberLines a (l :: ls) = { addr := a, text := l, shape := classify (tokens l) } :: numberLines b ls ∧
      ((∀ name, classify (tokens l) ≠ .bareLabel name) → b = a + 1) := by
  cases hshape : classify (tokens l) with
  | bareLabel name => exact ⟨a, by rw [numberLines, hshape], fun hbare => absurd rfl (hbare name)⟩
  | record _ _ _ | malformed => exact ⟨a + 1, by rw [numberLines, hshape], fun _ => rfl⟩

/-- Without a bare label the addresses are consecutive. -/
theorem addr_of_getElem?_numberLines {a k : Nat} {ls : List Text} {l : Line}
    (hbare : ∀ l ∈ numberLines a ls, ∀ name, l.shape ≠ .bareLabel name) (hk : (numberLines a ls)[k]? = some l) :
    l.addr = a + k := by
  induction ls generalizing a k with
  | nil => cases hk
  | cons t ts ih =>
    obtain ⟨b, heq, hb⟩ := exists_numberLines_cons a t ts
    rw [heq, List.forall_mem_cons] at hbare
    obtain ⟨hhead, htail⟩ := hbare
    rw [heq] at hk
    cases k with
    | zero =>
      cases hk
      rfl
    | succ k => rw [ih htail hk, hb hhead, Nat.add_right_comm, Nat.add_assoc]

/-- A line that has a word is no bare label, so with nothing rejected the address of a line is its index. -/
theorem addr_of_getElem?_programLines {k : Nat} {l : Line} (h : rejectedLines table (programLines text) = [])
    (hk : (programLines text)[k]? = some l) : l.addr = k := by
  refine (addr_of_getElem?_numberLines (fun l hl name hshape => ?_) hk).trans (Nat.zero_add k)
  have hsome := rejectedLines_eq_nil_iff.1 h l hl
  rw [encodeLine_of_bareLabel hshape] at hsome
  cases hsome

end

end Sys2Proof.Asm

namespace Sys2Proof.Machine

section
variable {s : State} {program : List Int} {i k : Nat} {w : Int}

/-! ### The cells after the Loader's writes (70_reset_and_hazards.md R117) -/

theorem memRead_writeProgram_of_lt {a : Int} (ha : a < i) : memRead a (writeProgram i program s) = memRead a s := by
  induction program generalizing i s with
  | nil => rfl
  | cons v vs ih => rw [writeProgram, ih (by omega), memRead_memWrite_ne (by omega)]

/-- A word in range that fits memory is in its cell afterwards: the later writes go to later cells. -/
theorem memRead_writeProgram (hwf : Memory.wf s.mem = true) (hk : program[k]? = some w) (hcell : i + k ≤ 99)
    (hw0 : 0 ≤ w) (hw1 : w ≤ 999) : (memRead ((i + k : Nat) : Int) (writeProgram i program s) : Int) = w := by
  induction program generalizing i k s with
  | nil => cases hk
  | cons v vs ih =>
    rw [writeProgram]
    cases k with
    | zero =>
      cases hk
      rw [Nat.add_zero, memRead_writeProgram_of_lt (by omega)]
      exact memRead_memWrite_same hwf (by omega) (by omega) hw0 hw1
    | succ k =>
      rw [← Nat.succ_add_eq_add_succ]
      exact ih (memWrite_wf _ _ hwf) hk (by omega)

/-- Installing the input leaves memory alone. -/
theorem memRead_load (input : List Int) (s : State) (hk : program[k]? = some w) (hcell : k ≤ 99) (hw0 : 0 ≤ w)
    (hw1 : w ≤ 999) : (memRead (k : Int) (load program input s) : Int) = w := by
  have hcells := memRead_writeProgram (i := 0) reset_wf hk (by omega) hw0 hw1
  rwa [Nat.zero_add] at hcells

theorem assembleThenLoad_of_nil_rejected {text : Text} {accepted : List Nat} (h : Asm.assemble text = .lists accepted [])
    (input : List Int) (s : State) :
    assembleThenLoad text input s = .loaded (load (accepted.map Int.ofNat) input s) := by
  rw [assembleThenLoad, h]

end

end Sys2Proof.Machine

/-! ### The statements -/

namespace Sys2Proof

open Machine Asm

/-- Settles O60: the words are parallel to the lines, the lines to their addresses, and the Loader writes in that order. -/
theorem assembledProgramIsLoadedInAddressOrder : Obligations.AssembledProgramIsLoadedInAddressOrder := by
  intro text words input s h
  obtain ⟨_, rfl, hnone⟩ := assemble_eq_lists_iff.1 h
  have hparallel := map_some_acceptedWords hnone
  refine ⟨by simpa using congrArg List.length hparallel, fun k w hk => ⟨?_, fun hcell hw => ⟨?_, ?_⟩⟩⟩
  · have hindex := congrArg (·[k]?) hparallel
    simp only [List.getElem?_map, hk, Option.map_some] at hindex
    obtain ⟨l, hl, hword⟩ := Option.map_eq_some_iff.1 hindex.symm
    exact ⟨l, hl, addr_of_getElem?_programLines hnone hl, hword⟩
  · exact assembleThenLoad_of_nil_rejected h input s
  · refine Int.ofNat_inj.1 (memRead_load input s ?_ hcell (Int.natCast_nonneg w) (Int.ofNat_le.2 hw))
    rw [List.getElem?_map, hk]
    rfl

/-- Settles O59: the text reads back as in the codec's round trip, and an absent operand resolves to 0. -/
theorem linearisedTextEncodesAlike : Obligations.LinearisedTextEncodesAlike := fun _ hm =>
  ⟨encodeText_instructionText hm, if_pos rfl, fun _ hn => if_neg hn, fun _ _ => Eq.symm⟩

end Sys2Proof

/-! ## 46_label_table_resolver.md: the label table and the operands -/

namespace Sys2Proof.Asm

section
variable {lines : List Line} {table : LabelTable} {name : Text} {a : Nat}

/-! ### Numerals and labels (45_assembler.md R84, 46_label_table_resolver.md R92) -/

theorem isDigit_iff (c : Char) : isDigit c = true ↔ 48 ≤ c.toNat ∧ c.toNat ≤ 57 := by
  rw [isDigit, Bool.and_eq_true, decide_eq_true_iff, decide_eq_true_iff]

theorem isNumeral_iff (t : Text) : isNumeral t = true ↔ t ≠ [] ∧ ∀ c ∈ t, 48 ≤ c.toNat ∧ c.toNat ≤ 57 := by
  simp [isNumeral, isDigit_iff]

theorem isReserved_iff (t : Text) : isReserved t = true ↔ t ∈ reservedWords := List.contains_iff_mem

theorem isLabel_iff (t : Text) : isLabel t = true ↔ t ≠ [] ∧ t ∉ reservedWords ∧
    ∀ c ∈ t, 65 ≤ c.toNat ∧ c.toNat ≤ 90 ∨ 97 ≤ c.toNat ∧ c.toNat ≤ 122 := by
  have hreserved : isReserved t = false ↔ t ∉ reservedWords := by rw [← isReserved_iff, Bool.not_eq_true]
  rw [isLabel, Bool.and_right_comm]
  simp [isLabelLetter, hreserved, and_assoc]

theorem numeralValue_concat (t : Text) (c : Char) : numeralValue (t ++ [c]) = 10 * numeralValue t + (c.toNat - 48) :=
  Nat.ofDigitChars_append 0

/-- A label has a first letter, and no letter is a digit. -/
theorem isNumeral_eq_false_of_isLabel {t : Text} (h : isLabel t = true) : isNumeral t = false := by
  obtain ⟨hne, _, hletters⟩ := (isLabel_iff t).1 h
  obtain ⟨c, hc⟩ := List.exists_mem_of_ne_nil t hne
  refine Bool.eq_false_iff.2 fun hnumeral => ?_
  obtain ⟨_, hdigits⟩ := (isNumeral_iff t).1 hnumeral
  have hletter := hletters c hc
  have hdigit := hdigits c hc
  omega

theorem resolveOperand_of_isNumeral {t : Text} (table : LabelTable) (h : isNumeral t = true) :
    resolveOperand table (some t) = some (numeralValue t) := if_pos h

theorem resolveOperand_of_not_isNumeral {t : Text} (table : LabelTable) (h : isNumeral t = false) :
    resolveOperand table (some t) = table.lookup t := if_neg (Bool.eq_false_iff.1 h)

/-! ### The texts and shapes of the lines (45_assembler.md R79 to R82) -/

theorem map_text_shape_numberLines (a : Nat) (ls : List Text) :
    (numberLines a ls).map (fun l => (l.text, l.shape)) = ls.map fun l => (l, classify (tokens l)) := by
  induction ls generalizing a with
  | nil => rfl
  | cons l ls ih =>
    obtain ⟨b, heq, _⟩ := exists_numberLines_cons a l ls
    rw [heq, List.map_cons, ih b, List.map_cons]

/-! ### When the resolver refuses a program (46_label_table_resolver.md R98, R99) -/

theorem bareName_eq_none_iff {l : Line} : bareName l = none ↔ ∀ name, l.shape ≠ .bareLabel name := by
  rw [bareName]
  cases l.shape <;> simp

theorem firstDuplicate_eq_none_iff {names : List Text} : firstDuplicate names = none ↔ names.Nodup := by
  induction names with
  | nil => exact iff_of_true rfl List.nodup_nil
  | cons n ns ih =>
    rw [List.nodup_cons, ← ih, firstDuplicate]
    split
    case isTrue h => simp [List.contains_iff_mem.1 h]
    case isFalse h => simp [mt List.contains_iff_mem.2 h]

theorem refusal_eq_none_iff : refusal lines = none ↔
    (∀ l ∈ lines, ∀ name, l.shape ≠ .bareLabel name) ∧ ((labelTable lines).map Prod.fst).Nodup := by
  have hbare : (lines.filterMap bareName).head? = none ↔ ∀ l ∈ lines, ∀ name, l.shape ≠ .bareLabel name := by
    simp only [List.head?_eq_none_iff, List.filterMap_eq_nil_iff, bareName_eq_none_iff]
  rw [← hbare, refusal]
  split <;> simp [*, firstDuplicate_eq_none_iff]

/-! ### The bindings of the table (46_label_table_resolver.md R91, R93) -/

theorem declaration_eq_some_iff {l : Line} :
    declaration l = some (name, a) ↔ l.addr = a ∧ ∃ m op, l.shape = .record (some name) m op := by
  rw [declaration]
  split <;> simp [*, and_comm]

/-- Names bound once: every entry of the table is the one found under its name. -/
theorem lookup_eq_some_iff_mem (h : (table.map Prod.fst).Nodup) : table.lookup name = some a ↔ (name, a) ∈ table := by
  rw [List.lookup_eq_some_iff]
  constructor
  · rintro ⟨before, after, rfl, _⟩
    exact List.mem_append_right _ List.mem_cons_self
  · intro hmem
    obtain ⟨before, after, rfl⟩ := List.append_of_mem hmem
    rw [List.map_append, List.nodup_append] at h
    obtain ⟨_, _, hdisjoint⟩ := h
    refine ⟨before, after, rfl, fun p hp => bne_iff_ne.2 (Ne.symm ?_)⟩
    exact hdisjoint p.1 (List.mem_map_of_mem hp) name List.mem_cons_self

theorem lookup_labelTable_eq_some_iff (h : refusal lines = none) : (labelTable lines).lookup name = some a ↔
    ∃ l ∈ lines, l.addr = a ∧ ∃ m op, l.shape = .record (some name) m op := by
  rw [lookup_eq_some_iff_mem (refusal_eq_none_iff.1 h).2]
  simp only [labelTable, List.mem_filterMap, declaration_eq_some_iff]

end

end Sys2Proof.Asm

/-! ### The statements -/

namespace Sys2Proof

open Asm

/-- Settles O55: a program that is not refused has no bare label, so addresses are indices, and no name is declared twice, so
the table holds what each declaring line put there. -/
theorem labelIsBoundToItsDeclaringLine : Obligations.LabelIsBoundToItsDeclaringLine := by
  refine fun text => ⟨map_text_shape_numberLines 0 _, fun hrefusal => ?_⟩
  have haddr : ∀ (k : Nat) (l : Line), (programLines text)[k]? = some l → l.addr = k := fun k l hk =>
    (addr_of_getElem?_numberLines (refusal_eq_none_iff.1 hrefusal).1 hk).trans (Nat.zero_add k)
  refine ⟨haddr, fun name a => (lookup_labelTable_eq_some_iff hrefusal).trans ⟨?_, ?_⟩⟩
  · rintro ⟨l, hl, rfl, m, op, hshape⟩
    obtain ⟨k, hk⟩ := List.mem_iff_getElem?.1 hl
    exact ⟨l, m, op, (haddr k l hk).symm ▸ hk, hshape⟩
  · rintro ⟨l, m, op, ha, hshape⟩
    exact ⟨l, List.mem_of_getElem? ha, haddr a l ha, m, op, hshape⟩

/-- Settles O56: a label is no numeral, so its case is the lookup. -/
theorem operandResolution : Obligations.OperandResolution :=
  ⟨isNumeral_iff, fun t c => ⟨rfl, fun _ _ => numeralValue_concat t c⟩, fun table _ =>
    ⟨rfl, resolveOperand_of_isNumeral table,
      fun hlabel => resolveOperand_of_not_isNumeral table (isNumeral_eq_false_of_isLabel hlabel),
      fun hnumeral hlookup => (resolveOperand_of_not_isNumeral table hnumeral).trans hlookup⟩⟩

end Sys2Proof

/-! ## 70_reset_and_hazards.md: the Loader's two outcomes -/

namespace Sys2Proof.Machine

open Asm

/-- The companion of `assembleThenLoad_of_nil_rejected`: one rejected line is enough to leave the machine as it was (R118). -/
theorem assembleThenLoad_of_rejected_ne_nil {text : Text} {accepted : List Nat} {rejected : List Rejected}
    (h : assemble text = .lists accepted rejected) (hne : rejected ≠ []) (input : List Int) (s : State) :
    assembleThenLoad text input s = .reported rejected s := by
  cases rejected with
  | nil => exact absurd rfl hne
  | cons r rs => rw [assembleThenLoad, h]

/-! ### The statements -/

/-- Settles O51: an empty rejected list and a non-empty one are the two arms of `assembleThenLoad` for lists. -/
theorem assembleThenLoadIsAllOrNothing : Obligations.AssembleThenLoadIsAllOrNothing := by
  intro text input s accepted rejected h
  constructor
  · rintro rfl
    exact assembleThenLoad_of_nil_rejected h input s
  · intro hne
    exact assembleThenLoad_of_rejected_ne_nil h hne input s

end Sys2Proof.Machine

/-! ## 30_encoding.md: the mnemonic encoder, the table's image and the ends of the codec's domain -/

namespace Sys2Proof

/-! ### The tenth reserved word and the names that are none (30_encoding.md R45, R46) -/

theorem encodeMnemonic_datName (n : Nat) : encodeMnemonic datName n = .ok n := by
  have hnone : opcodeMap.lookup datName = none := by decide
  rw [encodeMnemonic, hnone]
  exact if_pos rfl

theorem encodeMnemonic_of_not_mem {name : Text} (h : name ∉ reservedWords) (n : Nat) :
    encodeMnemonic name n = .error .translationFailure := by
  have hnone : opcodeMap.lookup name = none := by
    refine List.lookup_eq_none_iff.2 fun row hrow => bne_iff_ne.2 ?_
    rintro rfl
    exact h (mem_reservedWords_of_mem hrow)
  have hdat : name ≠ datName := by
    rintro rfl
    exact h (List.mem_append_right _ List.mem_cons_self)
  rw [encodeMnemonic, hnone]
  exact if_neg hdat

/-! ### The decimal-coded image (30_encoding.md R50) -/

theorem bcd_eq (w : Nat) : bcd w = w / 100 * 256 + w / 10 % 10 * 16 + w % 10 := rfl

theorem bcd_div_256 (w : Nat) : bcd w / 256 = w / 100 := by
  rw [bcd_eq]
  omega

theorem bcd_lt {w : Nat} (hw : w ≤ 999) : bcd w < 4096 := by
  rw [bcd_eq]
  omega

/-- Each decimal digit of a word is one 4-bit group of its image, so the groups give the digits back. -/
theorem wordOfBcd_bcd {w : Nat} (hw : w ≤ 999) : wordOfBcd (bcd w) = some w := by
  have htens : bcd w / 16 % 16 = w / 10 % 10 := by rw [bcd_eq]; omega
  have hunits : bcd w % 16 = w % 10 := by rw [bcd_eq]; omega
  have hdigits : w / 100 * 100 + w / 10 % 10 * 10 + w % 10 = w := by omega
  rw [wordOfBcd, bcd_div_256, htens, hunits, if_pos (by omega), hdigits]

/-- From 12 bits on nothing of the image is cut off. -/
theorem decodeTableWord_bcd {w nbits : Nat} (hw : w ≤ 999) (hbits : 12 ≤ nbits) :
    decodeTableWord nbits (bcd w) = (decode w).toOption := by
  have hfits : bcd w < 2 ^ nbits := (bcd_lt hw).trans_le (Nat.pow_le_pow_right Nat.two_pos hbits)
  rw [decodeTableWord, wordOfTableBits, Nat.mod_eq_of_lt hfits, wordOfBcd_bcd hw]

/-! ### Outside the domains (30_encoding.md R38, R48) -/

theorem decode_of_gt {w : Nat} (hw : 999 < w) : decode w = .error .wordOutOfRange := if_neg (Nat.not_le.2 hw)

theorem textOf_of_nine_le {k : Nat} (hk : 9 ≤ k) (n : Nat) : textOf k n = .error .noText := by
  rw [textOf, mnemonicOf_eq_none hk]

/-! ### The statements -/

/-- Settles O11: the ten reserved words are the nine names of the opcode map and DAT. -/
theorem mnemonicEncoderFollowsFormula : Obligations.MnemonicEncoderFollowsFormula := by
  refine fun name n => ⟨fun k hk => encodeMnemonic_of_mem hk n, ?_, fun hname => encodeMnemonic_of_not_mem hname n⟩
  rintro rfl
  exact encodeMnemonic_datName n

/-- Settles O15. -/
theorem tableImageDecodesAsTheWord : Obligations.TableImageDecodesAsTheWord := fun w hw =>
  ⟨bcd_lt hw, bcd_div_256 w, decodeTableWord_bcd hw (by decide), decodeTableWord_bcd hw (by decide)⟩

/-- Settles O7: the halves of a word up to 999 are an opcode digit and two operand digits. -/
theorem decodeSplitsEveryWord : Obligations.DecodeSplitsEveryWord := fun w =>
  ⟨fun hw => ⟨decode_eq hw, splitWord_eq w, by omega, by omega, Nat.div_add_mod' w 100⟩, decode_of_gt⟩

/-- Settles O13: from 900 on the opcode is at least 9, which has no mnemonic. -/
theorem noTextForOpcodeNine : Obligations.NoTextForOpcodeNine := fun w hw =>
  textOf_of_nine_le (by omega : 9 ≤ w / 100) (w % 100)

end Sys2Proof

/-! ## 70_reset_and_hazards.md, 40_step_cycle.md and 44_io.md: reset, the Loader's cells, the halted machine and INP -/

namespace Sys2Proof.Machine

section
variable {s : State} {program : List Int} {i : Nat}

/-! ### What reset and the Loader leave (70_reset_and_hazards.md R116, R117) -/

/-- No cell is listed after reset, so inside and outside the address space the read is 0. -/
theorem memRead_reset (a : Int) : memRead a State.reset = 0 := by
  unfold memRead
  split <;> rfl

theorem writeProgram_eq_with_mem (i : Nat) (program : List Int) (s : State) :
    writeProgram i program s = { s with mem := (writeProgram i program s).mem } := by
  induction program generalizing i s with
  | nil => rfl
  | cons w ws ih => rw [writeProgram, ih, memWrite_eq_with_mem]

/-- A cell keeps what it held when no word in range is written to it: the program ends before it, or its word is one that
the guard drops (20_memory.md R35). -/
theorem memRead_writeProgram_of_dropped {a : Int}
    (h : ∀ (k : Nat) (w : Int), program[k]? = some w → a = ((i + k : Nat) : Int) → w < 0 ∨ 999 < w) :
    memRead a (writeProgram i program s) = memRead a s := by
  induction program generalizing i s with
  | nil => rfl
  | cons v vs ih =>
    rw [writeProgram, ih fun k w hk ha => h (k + 1) w hk (by omega)]
    by_cases ha : a = (i : Int)
    · have hv := h 0 v rfl ha
      rw [memWrite_of_outOfRange (by omega)]
    · exact memRead_memWrite_ne ha

/-- `load` starts from reset, whose cells all read 0. -/
theorem memRead_load_of_dropped {a : Int} (input : List Int) (s : State)
    (h : ∀ (k : Nat) (w : Int), program[k]? = some w → a = (k : Int) → w < 0 ∨ 999 < w) :
    memRead a (load program input s) = 0 := by
  have hkept : memRead a (writeProgram 0 program State.reset) = memRead a State.reset :=
    memRead_writeProgram_of_dropped fun k w hk ha => h k w hk (by omega)
  exact hkept.trans (memRead_reset a)

theorem load_eq_with_mem (program input : List Int) (s : State) :
    load program input s = { State.reset with mem := (load program input s).mem, inq := input } := by
  rw [load, writeProgram_eq_with_mem]
  rfl

/-! ### The halted machine (40_step_cycle.md R52) -/

theorem step_of_halted (hr : s.running = false) : step s = .fault .halted := by
  simp [step, stepEnabled, hr, haltedOutcome]

/-! ### INP (44_io.md R72) -/

theorem exec_inp_of_nil (n : Nat) (hq : s.inq = []) : exec (.inp n) s = .next { s with acc := 0 } := by
  rw [exec_inp, takeInput_of_nil hq]
  rfl

theorem exec_inp_of_cons {v : Int} {rest : List Int} (n : Nat) (hq : s.inq = v :: rest) :
    exec (.inp n) s = .next (accWrite v { s with inq := rest }) := by
  rw [exec_inp, takeInput_of_cons hq]

end

/-! ### The statements -/

/-- Settles O50: a word in range is what its cell reads as, and a cell with no such word keeps the 0 of reset. -/
theorem loadPlacesProgramAndInput : Obligations.LoadPlacesProgramAndInput := by
  intro program input s
  have hfields := load_eq_with_mem program input s
  refine ⟨rfl, congrArg State.acc hfields, congrArg State.pc hfields, congrArg State.outq hfields,
    congrArg State.running hfields, fun i w hi hw => ?_, fun i hlen => ?_⟩
  · split
    case isTrue hrange => exact memRead_load input s hw hi hrange.1 hrange.2
    case isFalse hrange =>
      refine Int.ofNat_eq_zero.2 (memRead_load_of_dropped input s fun k v hk ha => ?_)
      obtain rfl : i = k := Int.ofNat_inj.1 ha
      obtain rfl : w = v := Option.some.inj (hw.symm.trans hk)
      omega
  · refine memRead_load_of_dropped input s fun k v hk ha => ?_
    have hlt : k < program.length := (List.getElem?_eq_some_iff.1 hk).1
    omega

/-- Settles O1. -/
theorem resetSetsAllSixFields : Obligations.ResetSetsAllSixFields := fun _ =>
  ⟨rfl, rfl, rfl, rfl, rfl, memRead_reset⟩

/-- Settles O46. -/
theorem resetMeetsRangeInvariant : Obligations.ResetMeetsRangeInvariant := reset_inv

/-- Settles O20. -/
theorem haltedMachineTakesNoStep : Obligations.HaltedMachineTakesNoStep := fun _ hr =>
  ⟨step_of_halted hr, fun fuel => runFor_halted fuel hr⟩

/-- Settles O35: the guard lets 0 and every front element in [0, 999] through. -/
theorem inpTakesFrontOrZero : Obligations.InpTakesFrontOrZero := by
  refine fun n hn => ⟨decode_packWord (k := 7) (by decide) (by omega), encodeMnemonic_of_mem (k := 7) (by decide) 0,
    fun s hq => exec_inp_of_nil n hq, fun s v rest hq hv0 hv1 => ?_⟩
  rw [exec_inp_of_cons n hq, accWrite_of_inRange hv0 hv1]

/-- Settles O36: the element is gone before the guard drops it. -/
theorem inpConsumesOutOfRangeElement : Obligations.InpConsumesOutOfRangeElement := by
  intro n s v rest hq hv
  rw [exec_inp_of_cons n hq, accWrite_of_outOfRange hv]

end Sys2Proof.Machine

/-! ## 45_assembler.md section 2: raw lines, comments, white space and tokens -/

namespace Sys2Proof.Asm

/-! ### Raw lines (45_assembler.md R76) -/

/-- Splitting undoes the joining of lines by line feeds. -/
theorem splitLines_intercalate {ls : List Text} (hne : ls ≠ []) (h : ∀ l ∈ ls, '\n' ∉ l) :
    splitLines (List.intercalate ['\n'] ls) = ls := by
  induction ls with
  | nil => exact absurd rfl hne
  | cons l ls ih =>
    obtain ⟨hl, hls⟩ := List.forall_mem_cons.1 h
    cases ls with
    | nil => rw [List.intercalate_singleton, splitLines_single hl]
    | cons l' ls =>
      rw [List.intercalate_cons_cons, List.append_assoc, List.singleton_append, splitLines_append _ hl,
        ih (List.cons_ne_nil _ _) hls]

theorem bodyLines_framed (first last : Text) (body : List Text) : bodyLines (first :: body ++ [last]) = body := by
  rw [bodyLines, List.cons_append, List.tail_cons, List.dropLast_concat]

theorem bodyLines_splitLines_framed {first last : Text} {body : List Text} (hfirst : '\n' ∉ first) (hlast : '\n' ∉ last)
    (hbody : ∀ l ∈ body, '\n' ∉ l) :
    bodyLines (splitLines (List.intercalate ['\n'] (first :: body ++ [last]))) = body := by
  rw [splitLines_intercalate (List.append_ne_nil_of_right_ne_nil _ (List.cons_ne_nil _ _)), bodyLines_framed]
  intro l hl
  rcases List.mem_append.1 hl with hl | hl
  · rcases List.mem_cons.1 hl with rfl | hl
    · exact hfirst
    · exact hbody l hl
  · exact List.mem_singleton.1 hl ▸ hlast

theorem cleanedLines_of_single {text : Text} (h : '\n' ∉ text) : cleanedLines text = [] := by
  rw [cleanedLines, splitLines_single h]
  rfl

/-! ### Comments (45_assembler.md R77) -/

/-- What stands before the first two slashes in a row is kept. The next character of the rest is part of the hypothesis,
since it may be the second of two slashes. -/
theorem removeComment_append {l r : Text} (h : ¬ ['/', '/'] <:+: l ++ r.take 1) :
    removeComment (l ++ r) = l ++ removeComment r := by
  induction l with
  | nil => rfl
  | cons c cs ih =>
    rw [List.cons_append, List.infix_cons_iff, not_or] at h
    obtain ⟨hstart, hrest⟩ := h
    have hslash : ¬ (c = '/' ∧ (cs ++ r).head? = some '/') := by
      rintro ⟨rfl, hhead⟩
      refine hstart (List.cons_prefix_cons.2 ⟨rfl, ?_⟩)
      have hnext : (cs ++ r.take 1).head? = some '/' := by
        simpa [List.head?_append, List.head?_take] using hhead
      obtain ⟨tail, htail⟩ := List.head?_eq_some_iff.1 hnext
      exact htail ▸ List.prefix_append ['/'] tail
    rw [List.cons_append, removeComment, if_neg hslash, ih hrest, List.cons_append]

/-! ### White space and trimming (45_assembler.md R77) -/

theorem isSpace_iff (c : Char) : isSpace c = true ↔ c = ' ' ∨ c = '\t' ∨ c = '\r' := by
  simp [isSpace, or_assoc]

/-- The line is empty or begins with a character that is not white space. -/
theorem dropWhile_isSpace_eq_self {l : Text} (h : l.head?.all (fun c => !isSpace c) = true) :
    l.dropWhile isSpace = l := by
  cases l with
  | nil => rfl
  | cons c cs => exact List.dropWhile_cons_of_neg (by simpa using h)

theorem head?_dropWhile_isSpace (l : Text) : (l.dropWhile isSpace).head?.all (fun c => !isSpace c) = true := by
  have hnot := List.head?_dropWhile_not isSpace l
  cases hhead : (l.dropWhile isSpace).head? with
  | none => rfl
  | some c => simpa [hhead] using hnot

theorem dropWhile_isSpace_append {u l : Text} (hu : ∀ c ∈ u, isSpace c = true)
    (hl : l.head?.all (fun c => !isSpace c) = true) : (u ++ l).dropWhile isSpace = l := by
  rw [List.dropWhile_append_of_pos hu, dropWhile_isSpace_eq_self hl]

/-- Trimming takes exactly the white space around a text that neither begins nor ends with any; around the empty text that
is everything. -/
theorem trim_surrounded {u m v : Text} (hspace : ∀ c ∈ u ++ v, isSpace c = true)
    (hhead : m.head?.all (fun c => !isSpace c) = true) (hlast : m.getLast?.all (fun c => !isSpace c) = true) :
    trim (u ++ m ++ v) = m := by
  cases m with
  | nil =>
    have hnil : (u ++ [] ++ v).dropWhile isSpace = [] := List.dropWhile_eq_nil_iff.2 (by rwa [List.append_nil])
    rw [trim, hnil]
    rfl
  | cons c cs =>
    obtain ⟨hu, hv⟩ := List.forall_mem_append.1 hspace
    have hfront : (u ++ (c :: cs ++ v)).dropWhile isSpace = c :: cs ++ v := dropWhile_isSpace_append hu hhead
    have hback : (v.reverse ++ (c :: cs).reverse).dropWhile isSpace = (c :: cs).reverse :=
      dropWhile_isSpace_append (fun d hd => hv d (List.mem_reverse.1 hd)) (by rwa [List.head?_reverse])
    rw [trim, List.append_assoc, hfront, List.reverse_append, hback, List.reverse_reverse]

/-- The back is trimmed last, and what is left begins as before. -/
theorem head?_trim (l : Text) : (trim l).head?.all (fun c => !isSpace c) = true := by
  have hprefix : trim l <+: l.dropWhile isSpace := List.rdropWhile_prefix isSpace _
  obtain ⟨rest, hrest⟩ := hprefix
  have hhead := head?_dropWhile_isSpace l
  rw [← hrest] at hhead
  cases htrim : trim l with
  | nil => rfl
  | cons c cs => rwa [htrim] at hhead

theorem getLast?_trim (l : Text) : (trim l).getLast?.all (fun c => !isSpace c) = true := by
  rw [trim, List.getLast?_reverse]
  exact head?_dropWhile_isSpace _

theorem exists_eq_trim_of_mem_cleanedLines {text l : Text} (h : l ∈ cleanedLines text) : l ≠ [] ∧ ∃ raw, l = trim raw := by
  obtain ⟨hmem, hne⟩ := List.mem_filter.1 h
  obtain ⟨raw, _, rfl⟩ := List.mem_map.1 hmem
  exact ⟨by simpa using hne, _, rfl⟩

/-! ### Tokens (45_assembler.md R78) -/

theorem tokens_cons_of_isSpace {c : Char} (r : Text) (h : isSpace c = true) : tokens (c :: r) = tokens r := if_pos h

theorem tokens_ne_nil_of_head? {l : Text} (hne : l ≠ []) (h : l.head?.all (fun c => !isSpace c) = true) :
    tokens l ≠ [] := by
  cases l with
  | nil => exact absurd rfl hne
  | cons c cs => exact tokens_ne_nil ⟨c, List.mem_cons_self, by simpa using h⟩

/-! ### The statements -/

/-- Settles O52. -/
theorem framingLinesAreDiscarded : Obligations.FramingLinesAreDiscarded :=
  ⟨fun _ _ _ => bodyLines_splitLines_framed, fun _ => cleanedLines_of_single⟩

/-- Settles O53: a cleaned line is what `trim` leaves, so its first character is the start of a token. -/
theorem cleanedLinesHaveTokens : Obligations.CleanedLinesHaveTokens := by
  refine ⟨fun l r h => ?_, fun l h => ?_, isSpace_iff, fun u m v => trim_surrounded, fun first last body hf hl hb => ?_,
    ⟨rfl, fun c r => tokens_cons_of_isSpace r, fun m hm hns =>
      ⟨tokens_word hm hns, fun c r hs => tokens_append r hs hm hns⟩⟩, fun text l h => ?_⟩
  · rw [removeComment_append (r := '/' :: '/' :: r) h]
    exact List.append_nil l
  · simpa [removeComment] using removeComment_append (r := []) (by simpa using h)
  · rw [cleanedLines, bodyLines_splitLines_framed hf hl hb]
  · obtain ⟨hne, raw, rfl⟩ := exists_eq_trim_of_mem_cleanedLines h
    exact ⟨tokens_ne_nil_of_head? hne (head?_trim raw), head?_trim raw, getLast?_trim raw⟩

end Sys2Proof.Asm

/-! ## 45_assembler.md sections 3 and 4, 46_label_table_resolver.md section 3: shapes, refusals and the two lists -/

namespace Sys2Proof.Asm

/-! ### Shapes by the number of tokens (45_assembler.md R79 to R82) -/

section
variable {t : Text}

theorem isReserved_eq_false_of_isLabel (h : isLabel t = true) : isReserved t = false := by
  obtain ⟨_, hnot, _⟩ := (isLabel_iff t).1 h
  exact Bool.eq_false_iff.2 (mt (isReserved_iff t).1 hnot)

theorem isLabel_eq_false_of_isReserved (h : isReserved t = true) : isLabel t = false :=
  Bool.eq_false_iff.2 fun hlabel => Bool.false_ne_true ((isReserved_eq_false_of_isLabel hlabel).symm.trans h)

theorem classify_one (t : Text) : classify [t] = if isLabel t = true then .bareLabel t else .record none t none := by
  cases hr : isReserved t with
  | true => simp [classify, classifyOne, hr, isLabel_eq_false_of_isReserved hr]
  | false => simp [classify, classifyOne, hr]

/-- A reserved first token is no label, so what decides is whether a label stands before a reserved word. -/
theorem classify_two (t1 t2 : Text) : classify [t1, t2] =
    if isLabel t1 = true ∧ isReserved t2 = true then .record (some t1) t2 none else .record none t1 (some t2) := by
  cases hr : isReserved t1 with
  | true => simp [classify, classifyTwo, hr, isLabel_eq_false_of_isReserved hr]
  | false => simp [classify, classifyTwo, hr, and_comm]

theorem classify_three (t1 t2 t3 : Text) : classify [t1, t2, t3] =
    if isLabel t1 = true ∧ isReserved t2 = true then .record (some t1) t2 (some t3) else .malformed := by
  simp [classify, classifyThree]

end

/-! ### Refusals (46_label_table_resolver.md R98, R99) -/

section
variable {text : Text} {table : LabelTable} {lines : List Line} {l : Line}

/-- The line has the label `name` before its instruction (46_label_table_resolver.md R93). -/
def Declares (l : Line) (name : Text) : Prop := ∃ m op, l.shape = .record (some name) m op

/-- No two lines declare one label. -/
theorem nodup_labelTable_iff : ((labelTable lines).map Prod.fst).Nodup ↔
    lines.Pairwise fun l l' => ∀ name, Declares l name → ¬ Declares l' name := by
  rw [List.Nodup, List.pairwise_map, labelTable, List.pairwise_filterMap]
  refine List.Pairwise.iff fun l l' => ⟨fun h name hl hl' => ?_, fun h => ?_⟩
  · have hdecl : declaration l = some (name, l.addr) := declaration_eq_some_iff.2 ⟨rfl, hl⟩
    have hdecl' : declaration l' = some (name, l'.addr) := declaration_eq_some_iff.2 ⟨rfl, hl'⟩
    exact h _ hdecl _ hdecl' rfl
  · rintro ⟨name, a⟩ hl ⟨name', a'⟩ hl' rfl
    exact h name (declaration_eq_some_iff.1 hl).2 (declaration_eq_some_iff.1 hl').2

/-- A relation fails between two elements of a list, in their order. -/
theorem not_pairwise_iff_getElem? {α : Type} {R : α → α → Prop} {xs : List α} : ¬ xs.Pairwise R ↔
    ∃ (j k : Nat) (a b : α), j < k ∧ xs[j]? = some a ∧ xs[k]? = some b ∧ ¬ R a b := by
  rw [List.pairwise_iff_getElem]
  constructor
  · intro h
    push Not at h
    obtain ⟨j, k, hj, hk, hlt, hR⟩ := h
    exact ⟨j, k, _, _, hlt, List.getElem?_eq_getElem hj, List.getElem?_eq_getElem hk, hR⟩
  · rintro ⟨j, k, a, b, hlt, hj, hk, hR⟩ h
    obtain ⟨hj', rfl⟩ := List.getElem?_eq_some_iff.1 hj
    obtain ⟨hk', rfl⟩ := List.getElem?_eq_some_iff.1 hk
    exact hR (h j k hj' hk' hlt)

theorem refusal_ne_none_iff : refusal lines ≠ none ↔ (∃ l ∈ lines, ∃ name, l.shape = .bareLabel name) ∨
    ∃ (name : Text) (j k : Nat) (l l' : Line), j < k ∧ lines[j]? = some l ∧ lines[k]? = some l' ∧
      Declares l name ∧ Declares l' name := by
  rw [Ne, refusal_eq_none_iff, not_and_or, nodup_labelTable_iff, not_pairwise_iff_getElem?]
  push Not
  refine or_congr Iff.rfl ⟨?_, ?_⟩
  · rintro ⟨j, k, l, l', hlt, hj, hk, name, hl, hl'⟩
    exact ⟨name, j, k, l, l', hlt, hj, hk, hl, hl'⟩
  · rintro ⟨name, j, k, l, l', hlt, hj, hk, hl, hl'⟩
    exact ⟨j, k, l, l', hlt, hj, hk, name, hl, hl'⟩

theorem exists_assembleLines_eq_refused_iff : (∃ why, assembleLines lines = .refused why) ↔ refusal lines ≠ none := by
  rw [assembleLines]
  split <;> simp [*]

theorem assembleThenLoad_of_refused {why : Refused} (h : assemble text = .refused why) (input : List Int)
    (s : Machine.State) : Machine.assembleThenLoad text input s = .refused why := by
  rw [Machine.assembleThenLoad, h]

/-! ### The two lists of pass 2 (45_assembler.md R86) -/

theorem encodeLine_of_record {label op : Option Text} {m : Text} (h : l.shape = .record label m op) :
    encodeLine table l = (resolveOperand table op).bind fun n => (encodeMnemonic m n).toOption := by
  rw [encodeLine, h]
  cases hop : resolveOperand table op <;> simp [hop]

theorem encodeLine_of_malformed (h : l.shape = .malformed) : encodeLine table l = none := by
  rw [encodeLine, h]

/-- A line has a word or it has none. -/
theorem length_acceptedWords_add_length_rejectedLines (table : LabelTable) (lines : List Line) :
    (acceptedWords table lines).length + (rejectedLines table lines).length = lines.length := by
  rw [acceptedWords, List.length_filterMap_eq_countP, rejectedLines, List.length_map, ← List.countP_eq_length_filter,
    List.length_eq_countP_add_countP fun l => (encodeLine table l).isSome]
  simp only [Bool.not_eq_true, Bool.decide_eq_false, Option.not_isSome]

theorem mem_rejectedLines_iff {r : Rejected} : r ∈ rejectedLines table lines ↔
    ∃ l ∈ lines, encodeLine table l = none ∧ r = { addr := l.addr, text := l.text } := by
  simp [rejectedLines, and_assoc, @eq_comm _ r]

/-- A program that is not refused has no bare label, so its addresses are its indices. -/
theorem pairwise_addr_programLines (h : refusal (programLines text) = none) :
    (programLines text).Pairwise fun l l' => l.addr < l'.addr := by
  have haddr (k : Nat) (hk : k < (programLines text).length) : ((programLines text)[k]).addr = 0 + k :=
    addr_of_getElem?_numberLines (refusal_eq_none_iff.1 h).1 (List.getElem?_eq_getElem hk)
  refine List.pairwise_iff_getElem.2 fun j k hj hk hlt => ?_
  rw [haddr j hj, haddr k hk]
  omega

theorem pairwise_addr_rejectedLines (h : lines.Pairwise fun l l' => l.addr < l'.addr) :
    ((rejectedLines table lines).map Rejected.addr).Pairwise (· < ·) := by
  rw [rejectedLines, List.map_map, List.pairwise_map]
  exact h.filter _

end

/-! ### The statements -/

/-- Settles O54: three cases of the first token, which exclude each other since a label is no reserved word. -/
theorem lineShapesByTokenCount : Obligations.LineShapesByTokenCount := by
  refine ⟨fun t => ⟨isReserved_iff t, Iff.rfl, isLabel_iff t⟩, fun t1 t2 t3 t4 more =>
    ⟨fun hreserved => ?_, fun hlabel => ?_, fun _ hlabel => ?_, rfl⟩⟩
  · have hlabel := isLabel_eq_false_of_isReserved hreserved
    simp [classify_one, classify_two, classify_three, hlabel]
  · refine ⟨by simp [classify_one, hlabel], fun hnext => ?_, fun hnext => ?_⟩ <;>
      simp [classify_two, classify_three, hlabel, hnext]
  · simp [classify_one, classify_two, classify_three, hlabel]

/-- Settles O57. -/
theorem refusedExactlyOnBareOrDuplicateLabel : Obligations.RefusedExactlyOnBareOrDuplicateLabel :=
  ⟨fun _ => ⟨exists_assembleLines_eq_refused_iff, refusal_ne_none_iff⟩,
    fun _ => ⟨rfl, fun _ input s h => assembleThenLoad_of_refused h input s⟩⟩

/-- Settles O58: the lists are the lines with a word and the lines without one, and the addresses of a program that is not
refused rise. -/
theorem linesArePartitioned : Obligations.LinesArePartitioned := by
  refine ⟨fun table l label m op hshape => ⟨fun n hn => ?_, fun hn => ?_⟩, ?_, fun text accepted rejected h => ?_⟩
  · rw [encodeLine_of_record hshape, hn, Option.bind_some]
  · rw [encodeLine_of_record hshape, hn, Option.bind_none]
  · rintro table l (hshape | ⟨name, hshape⟩)
    · exact encodeLine_of_malformed hshape
    · exact encodeLine_of_bareLabel hshape
  · obtain ⟨hrefusal, rfl, rfl⟩ := assemble_eq_lists_iff.1 h
    exact ⟨length_acceptedWords_add_length_rejectedLines _ _, rfl,
      pairwise_addr_rejectedLines (pairwise_addr_programLines hrefusal), fun r => mem_rejectedLines_iff⟩

end Sys2Proof.Asm
